-- ==== Sys2Proof/Word.lean ====
section
/-! DEFINITION. The fixed-width values of the crypto core (spec 00_scope.md rules R9 and R13): bytes, 32-bit words, 64-bit
lanes and the fixed-size byte arrays. -/

namespace Sys2Proof

/-- A byte, an 8-bit unsigned value (R13). -/
abbrev Byte := BitVec 8

/-- A word, a 32-bit unsigned value (R13): register contents, host-interface offsets, command words. -/
abbrev Word := BitVec 32

/-- A Keccak lane, a 64-bit unsigned value (R13). -/
abbrev Lane := BitVec 64

/-- An AES block or round key: 16 bytes, byte `4c + r` being row `r` of column `c` (R9, R41). -/
abbrev Block := Vector Byte 16

/-- A word of the AES key schedule, four bytes, first byte first (R42). -/
abbrev KeyWord := Vector Byte 4

/-- An AES-128 key schedule, eleven round keys of 16 bytes (R9, R42). -/
abbrev Schedule := Vector Byte 176

/-- The Keccak state as 200 bytes (R9, R43). -/
abbrev KeccakState := Vector Byte 200

end Sys2Proof
end

