-- ==== Sys2Proof/Syntax.lean ====
section
/-! DEFINITION. The commands of the crypto core, one constructor per row of spec/opcode_table.json. A command word has no
operand fields (30_encoding.md rule R126), so no constructor has an argument. -/

namespace Sys2Proof

/-- The eleven commands of 30_encoding.md rule R122. -/
inductive Instr where
  /-- EXPANDKEY, 41_aes_key_schedule.md R204. -/
  | expandkey
  /-- ENCRYPT, 42_aes_cipher.md R232. -/
  | encrypt
  /-- DECRYPT, 42_aes_cipher.md R233. -/
  | decrypt
  /-- KECCAKF, 43_keccak_permutation.md R271. -/
  | keccakf
  /-- KECCAK, 44_sponge.md R310. -/
  | keccak
  /-- SHAKE128, 44_sponge.md R311. -/
  | shake128
  /-- SHAKE256, 44_sponge.md R312. -/
  | shake256
  /-- SHA3_224, 44_sponge.md R313. -/
  | sha3_224
  /-- SHA3_256, 44_sponge.md R314. -/
  | sha3_256
  /-- SHA3_384, 44_sponge.md R315. -/
  | sha3_384
  /-- SHA3_512, 44_sponge.md R316. -/
  | sha3_512
  deriving DecidableEq, Repr

end Sys2Proof
end

