-- ==== Sys2Proof/Decode.lean ====
section
/-! DEFINITION. The command encoding of 30_encoding.md: decoding a command word, total on all 32-bit words and rejecting by
name, and the encoder written from the same opcode map. -/

namespace Sys2Proof

/-- Why a command word selects no command: a bit of v[31:8] is set (R123), or the opcode is undefined (R124). -/
inductive DecodeError where
  | reserved
  | undefinedOpcode
  deriving DecidableEq, Repr

/-- CMD[7:0], the OPCODE field (R120, R121). -/
def opcodeField (v : Word) : Byte := v.extractLsb' 0 8

/-- CMD[31:8], the RSVD field (R120). -/
def reservedField (v : Word) : BitVec 24 := v.extractLsb' 8 24

/-- The opcode map (R122). -/
def decodeOpcode (op : Byte) : Except DecodeError Instr :=
  if op = 0x01 then .ok .expandkey
  else if op = 0x02 then .ok .encrypt
  else if op = 0x03 then .ok .decrypt
  else if op = 0x10 then .ok .keccakf
  else if op = 0x11 then .ok .keccak
  else if op = 0x20 then .ok .shake128
  else if op = 0x21 then .ok .shake256
  else if op = 0x22 then .ok .sha3_224
  else if op = 0x23 then .ok .sha3_256
  else if op = 0x24 then .ok .sha3_384
  else if op = 0x25 then .ok .sha3_512
  else .error .undefinedOpcode

/-- The command a word selects, the reserved bits tested first (R122, 60_exceptions.md R352). -/
def decode (v : Word) : Except DecodeError Instr :=
  if reservedField v ≠ 0 then .error .reserved else decodeOpcode (opcodeField v)

/-- The opcode of a command (R122). -/
def opcode : Instr → Byte
  | .expandkey => 0x01
  | .encrypt   => 0x02
  | .decrypt   => 0x03
  | .keccakf   => 0x10
  | .keccak    => 0x11
  | .shake128  => 0x20
  | .shake256  => 0x21
  | .sha3_224  => 0x22
  | .sha3_256  => 0x23
  | .sha3_384  => 0x24
  | .sha3_512  => 0x25

/-- The command word of a command: the opcode below 24 zero bits (R120, R122). -/
def encode (i : Instr) : Word := 0#24 ++ opcode i

/-- The command word whose lowest `nbits` bits are those of `w` and whose other bits are 0. -/
def tableWord (nbits w : Nat) : Word := BitVec.ofNat 32 (w % 2 ^ nbits)

/-- What the decoder reads from the word `w` of a row of spec/opcode_table.json; a command is never longer than 32 bits. -/
def decodeTableWord (nbits w : Nat) : Option Instr :=
  if 32 < nbits then none
  else match decode (tableWord nbits w) with
    | .ok i    => some i
    | .error _ => none

end Sys2Proof
end

