-- ==== Sys2Proof/Config.lean ====
section
/-! DEFINITION. What an implementation of the crypto core fixes: the four parameters of 00_scope.md rule R10, the
configuration VCFG of 95_test_vectors.md, and the one value the spec leaves open. -/

namespace Sys2Proof

/-- The parameters KEYS, IBUF_BYTES, OBUF_BYTES and NUM_HOSTS (00_scope.md R10, R12). They are held in State as data no
step changes, so that a claim about every state is a claim about every parameter (log entry 1).

KEYS is a function from a 32-bit index to none or a key, with KEYS(0) defined: `defaultKey` is KEYS(0), and `otherKeys`
lists the other provisioned indices (log entry 14). -/
structure Params where
  defaultKey : Block
  otherKeys  : List (Word × Block)
  ibufBytes  : Nat
  obufBytes  : Nat
  numHosts   : Nat
  deriving DecidableEq, Repr

namespace Config

/-- Entry 0 of the 11-entry round-constant table, "unspecified (never read)" (40_aes_primitives.md R156,
93_implementation_defined.md U1): a free value (log entry 8). -/
opaque rcon0 : Byte

/-- The vector configuration VCFG of 95_test_vectors.md: four keys, two buffers of 256 bytes, one host context.
DESIGN CHOICE, unsafe: it is the configuration of State.reset (log entry 1). -/
def vcfg : Params where
  defaultKey := #v[0x2b, 0x7e, 0x15, 0x16, 0x28, 0xae, 0xd2, 0xa6, 0xab, 0xf7, 0x15, 0x88, 0x09, 0xcf, 0x4f, 0x3c]
  otherKeys :=
    [(1, #v[0x00, 0x01, 0x02, 0x03, 0x04, 0x05, 0x06, 0x07, 0x08, 0x09, 0x0a, 0x0b, 0x0c, 0x0d, 0x0e, 0x0f]),
     (2, Vector.replicate 16 0x00),
     (3, Vector.replicate 16 0xff)]
  ibufBytes := 256
  obufBytes := 256
  numHosts := 1

end Config

end Sys2Proof
end

