-- ==== Sys2Proof/Machine/Aes.lean ====
section
/-! DEFINITION. The BlockCipherEngine as pure functions: the primitives of 40_aes_primitives.md, the key schedule of
41_aes_key_schedule.md (with the word four back, 90_conflicts.md C1) and the two ciphers of 42_aes_cipher.md (with eleven
key additions, 90_conflicts.md C2). -/

namespace Sys2Proof.Machine

/-! Field arithmetic and the byte positions of a block. -/

/-- xtime(b), the product by x in GF(2^8) under 0x11B (R151). -/
def xtime (b : Byte) : Byte := (b <<< 1) ^^^ (if b.getLsbD 7 then 0x1B else 0x00)

/-- x4(b), the product by x^2 (R152). -/
def x4 (b : Byte) : Byte := xtime (xtime b)

/-- Row `r` of column `c` of a block (10_state.md R41): byte 4c + r. -/
def cell (s : Block) (r c : Fin 4) : Byte := s[4 * c.val + r.val]

/-- The block whose row `r` of column `c` is `f r c` (10_state.md R41). -/
def ofCells (f : Fin 4 → Fin 4 → Byte) : Block :=
  Vector.ofFn fun i : Fin 16 => f ⟨i.val % 4, by omega⟩ ⟨i.val / 4, by omega⟩

/-! Row shifts and the fused passes. -/

/-- SH[i], the source index of ShiftRows (R157). -/
def sh (i : Fin 16) : Fin 16 := ⟨4 * ((i.val / 4 + i.val % 4) % 4) + i.val % 4, by omega⟩

/-- ISH[i], the source index of InvShiftRows (R158); the column difference is taken mod 4, in 0..3. -/
def ish (i : Fin 16) : Fin 16 := ⟨4 * ((i.val / 4 + 4 - i.val % 4) % 4) + i.val % 4, by omega⟩

/-- FwdPass: AddRoundKey, ShiftRows and SubBytes in one pass (R159). -/
def fwdPass (s k : Block) : Block := Vector.ofFn fun i : Fin 16 => sbox (s[sh i] ^^^ k[sh i])

/-- InvPass: InvShiftRows, InvSubBytes and AddRoundKey in one pass (R160). -/
def invPass (s k : Block) : Block := Vector.ofFn fun i : Fin 16 => invSbox s[ish i] ^^^ k[i]

/-- AddRoundKey, the byte-wise exclusive or (R164). -/
def addRoundKey (s k : Block) : Block := Vector.ofFn fun i : Fin 16 => s[i] ^^^ k[i]

/-! Column mixing. Rows are counted mod 4, as `Fin 4` counts. -/

/-- MixColumns, column by column, every byte of a column read before any is written (R161). -/
def mixColumns (s : Block) : Block :=
  ofCells fun j c =>
    let e := cell s 0 c ^^^ cell s 1 c ^^^ cell s 2 c ^^^ cell s 3 c
    cell s j c ^^^ xtime (cell s j c ^^^ cell s (j + 1) c) ^^^ e

/-- InvPre, the paired double-doubling step before the forward column mix (R162): rows 0 and 2 take u, rows 1 and 3 take w. -/
def invPre (s : Block) : Block :=
  ofCells fun j c =>
    let u := x4 (cell s 0 c ^^^ cell s 2 c)
    let w := x4 (cell s 1 c ^^^ cell s 3 c)
    cell s j c ^^^ (if j.val % 2 = 0 then u else w)

/-- InvMixColumns (R163). -/
def invMixColumns (s : Block) : Block := mixColumns (invPre s)

/-! The key schedule. -/

/-- SubWord (R155). -/
def subWord (w : KeyWord) : KeyWord := w.map sbox

/-- RotWord, by one byte toward the first position (R155). -/
def rotWord (w : KeyWord) : KeyWord := #v[w[1], w[2], w[3], w[0]]

/-- The exclusive or of two words, byte by byte. -/
def xorWord (a b : KeyWord) : KeyWord := Vector.ofFn fun j : Fin 4 => a[j] ^^^ b[j]

/-- Word `i` of a list of words, which every use below finds in the list. -/
def wordAt (ws : List KeyWord) (i : Nat) : KeyWord := ws.getD i (Vector.replicate 4 0)

/-- The word `t` that R201 adds to the word four back to make word `i`: the previous word, and at the first word of a round
key its rotated, substituted copy with the round constant in byte 0. -/
def scheduleMask (ws : List KeyWord) (i : Nat) : KeyWord :=
  let t := wordAt ws (i - 1)
  if i % 4 = 0 then xorWord (subWord (rotWord t)) #v[rcon (i / 4), 0, 0, 0] else t

/-- One turn of R201's loop: word `i` joins the words before it. -/
def expandStep (ws : List KeyWord) (i : Nat) : List KeyWord :=
  ws ++ [xorWord (wordAt ws (i - 4)) (scheduleMask ws i)]

/-- The raw key bytes as words 0 to 3 (R201). -/
def keyWords (key : Block) : List KeyWord :=
  (List.finRange 4).map fun c => Vector.ofFn fun j : Fin 4 => cell key j c

/-- Words 0 to 43 of the schedule of a key (R201). -/
def scheduleWords (key : Block) : List KeyWord := (List.range' 4 40).foldl expandStep (keyWords key)

/-- ExpandKey: the 176 bytes of the schedule of a key (R201). -/
def expandKey (key : Block) : Schedule :=
  let ws := scheduleWords key
  Vector.ofFn fun i : Fin 176 => (wordAt ws (i.val / 4))[i.val % 4]

/-- RK(W, r), round key `r` of a schedule (R203). -/
def roundKey (w : Schedule) (r : Fin 11) : Block := Vector.ofFn fun i : Fin 16 => w[16 * r.val + i.val]

/-! The ciphers. -/

/-- One turn of Cipher's loop (R230): the fused pass, and MixColumns when `r` is at most 8. -/
def cipherRound (w : Schedule) (s : Block) (r : Fin 11) : Block :=
  let t := fwdPass s (roundKey w r)
  if r.val ≤ 8 then mixColumns t else t

/-- Cipher (R230): rounds 0 to 9, then the final AddRoundKey. -/
def cipher (s : Block) (w : Schedule) : Block :=
  addRoundKey (([0, 1, 2, 3, 4, 5, 6, 7, 8, 9] : List (Fin 11)).foldl (cipherRound w) s) (roundKey w 10)

/-- One turn of InvCipher's loop (R231). -/
def invCipherRound (w : Schedule) (s : Block) (r : Fin 11) : Block := invPass (invMixColumns s) (roundKey w r)

/-- InvCipher (R231): the initial AddRoundKey, the inverse final round, then round keys 8 down to 0. -/
def invCipher (s : Block) (w : Schedule) : Block :=
  ([8, 7, 6, 5, 4, 3, 2, 1, 0] : List (Fin 11)).foldl (invCipherRound w)
    (invPass (addRoundKey s (roundKey w 10)) (roundKey w 9))

end Sys2Proof.Machine
end

