-- ==== Sys2Proof/Machine/Bus.lean ====
section
/-! DEFINITION. The host interface's vocabulary (10_state.md rule R32, 20_memory.md rules R80 to R85): locations, accesses,
bus errors and the inputs that reach the core. -/

namespace Sys2Proof.Machine

/-- The mapped locations of 10_state.md R32. -/
inductive Location where
  | cmd | status | keyidx | keyused | rate | capacity | suffix | inlen | outlen | ibufsize | obufsize
  | block | ksched | kstate | ibuf | obuf
  deriving DecidableEq, Repr

/-- What the host may do at a location (R32): read and write, or only read. -/
inductive Rights where
  | rw | ro
  deriving DecidableEq, Repr

/-- A row of the map of R32. A register accepts 4-byte accesses only, a buffer 1-byte and 4-byte ones. -/
structure MapEntry where
  loc        : Location
  base       : Nat
  size       : Nat
  isRegister : Bool
  rights     : Rights
  deriving DecidableEq, Repr

/-- The kind of a host access (20_memory.md R80). -/
inductive AccessKind where
  | read | write
  deriving DecidableEq, Repr

/-- A host access `(kind, off, n, v)` of one host context (20_memory.md R80). `value` holds v, and a Read ignores it. A
Word holds every v that is ever looked at, since an access of a width other than 1 or 4 raises BusError (log entry 10). -/
structure Access where
  host  : Nat
  kind  : AccessKind
  off   : Word
  n     : Nat
  value : Word
  deriving DecidableEq, Repr

/-- The reason of a bus error (20_memory.md R85). -/
inductive BusReason where
  | width | misaligned | unmapped | readonly
  deriving DecidableEq, Repr

/-- A recorded bus error `(host, kind, off, n, reason)` (20_memory.md R85). -/
structure BusError where
  host   : Nat
  kind   : AccessKind
  off    : Word
  n      : Nat
  reason : BusReason
  deriving DecidableEq, Repr

/-- A value returned to a host by a Read (20_memory.md R80), with the access it answers (log entry 5). -/
structure Reply where
  host  : Nat
  off   : Word
  n     : Nat
  value : Word
  deriving DecidableEq, Repr

/-- What reaches the core from outside: a host access (20_memory.md R80), or the platform's reset
(70_reset_and_hazards.md R380, log entry 4). -/
inductive Input where
  | access (a : Access)
  | reset
  deriving DecidableEq, Repr

end Sys2Proof.Machine
end

