-- ==== Sys2Proof/Machine/State.lean ====
section
/-! DEFINITION. The state of the crypto core as plain data (10_state.md), its stops, and the state after reset. -/

namespace Sys2Proof.Machine

/-- The outcome codes of STATUS.RESULT (60_exceptions.md R350): "No other value of RESULT is ever produced." -/
inductive ResultCode where
  | ok | errParams | errRateZero | errInlen | errOutlen | errOpcode | errReserved | none
  deriving DecidableEq, Repr

/-- A buffer whose bytes are each a value or unwritten (20_memory.md R99): a sparse list of (index, byte), indices strictly
rising. An unlisted byte is unwritten and holds no value, so every listed byte differs from an unlisted one. -/
abbrev Memory := List Host.Cell

/-- The whole machine. The fields from `cmd` to `busErrors` are the core's state (10_state.md R47, 20_memory.md R85);
`params` are the parameters (00_scope.md R10); the last three are the model's own (log entries 2, 5 and 6). STATUS is held
as its two fields and SUFFIX as SUFFIX[7:0]: their reserved bits have no storage (10_state.md R34, R38, log entry 12). -/
structure State where
  /-- KEYS, IBUF_BYTES, OBUF_BYTES and NUM_HOSTS; IBUFSIZE and OBUFSIZE read from here (R40). -/
  params    : Params
  /-- CMD, the last command word written (R33). -/
  cmd       : Word
  /-- STATUS.RESULT (R34). -/
  result    : ResultCode
  /-- STATUS.LASTOP (R34). -/
  lastop    : Byte
  /-- KEYIDX (R35). -/
  keyidx    : Word
  /-- KEYUSED (R36). -/
  keyused   : Word
  /-- RATE (R37). -/
  rate      : Word
  /-- CAPACITY (R37). -/
  capacity  : Word
  /-- SUFFIX[7:0] (R38). -/
  suffix    : Byte
  /-- INLEN (R39). -/
  inlen     : Word
  /-- OUTLEN (R39). -/
  outlen    : Word
  /-- BLOCK (R41). -/
  block     : Block
  /-- KSCHED (R42). -/
  ksched    : Schedule
  /-- KSTATE (R43). -/
  kstate    : KeccakState
  /-- IBUF, by byte index (R44). -/
  ibuf      : Memory
  /-- OBUF, by byte index (R45). -/
  obuf      : Memory
  /-- The fault list, oldest first (20_memory.md R85, log entry 11). -/
  busErrors : List BusError
  /-- The model's own: the inputs still to come, in the total order of 20_memory.md R94, oldest first. -/
  inputs    : List Input
  /-- The model's own: the host context whose access is being performed, or was the last performed. -/
  issuer    : Nat
  /-- The model's own: the values returned to the hosts by Reads, oldest first. -/
  returned  : List Reply
  deriving DecidableEq, Repr

/-- Why the machine stops with no successor state. -/
inductive Fault where
  /-- `Unwritten(host, off, n)`, raised by a host Read that covers an unwritten byte of IBUF or OBUF, and by a sponge
  command whose message has one (there `off` is 0 and `n` the first such index): 20_memory.md R99. Safe: "a claim about a
  program that reads a byte it never wrote cannot be proved" (log entry 7). -/
  | unwritten (host : Nat) (off : Word) (n : Nat)
  deriving DecidableEq, Repr

/-- Why the machine gives a step no meaning. -/
inductive Refusal where
  /-- An arm of `exec` not modelled yet; no arm of this model is. Safe. -/
  | notModelled (mnemonic : String)
  /-- Raised by the host port for an access of a host context that does not exist, one numbered NUM_HOSTS or more
  (00_scope.md R10). Safe: the spec gives such an access no meaning (log entry 9). -/
  | noSuchHost (host : Nat)
  deriving DecidableEq, Repr

/-- The core right after reset with parameters `p` (10_state.md R47, 70_reset_and_hazards.md R380), no input pending. -/
def State.resetWith (p : Params) : State where
  params    := p
  cmd       := 0x00000000
  result    := .none
  lastop    := 0x00
  keyidx    := 0x00000000
  keyused   := 0x00000000
  rate      := 0x00000000
  capacity  := 0x00000000
  suffix    := 0x00
  inlen     := 0x00000000
  outlen    := 0x00000000
  block     := Vector.replicate 16 0x00
  ksched    := Vector.replicate 176 0x00
  kstate    := Vector.replicate 200 0x00
  ibuf      := []
  obuf      := []
  busErrors := []
  inputs    := []
  issuer    := 0
  returned  := []

/-- The machine right after reset, with the parameters of VCFG (log entries 1 and 3). -/
def State.reset : State := State.resetWith Config.vcfg

end Sys2Proof.Machine
end

