-- ==== Sys2Proof/Machine/Ops.lean ====
section
/-! DEFINITION. The named operations over bytes, buffers and the fault list, which every meaning and every host access goes
through. The core has no trap, no vector, no saved state and no return (60_exceptions.md rules R355 and R356), so there is
no exception entry here: a failing command reports a code in STATUS (Machine/Flags.lean), and a bus error is recorded in the
fault list (`State.recordBusError`). -/

namespace Sys2Proof.Machine

/-- The value of a byte sequence, least significant byte first: `sum over k of bs[k] << 8k`, in `w` bits (20_memory.md R86,
10_state.md R43). Byte order is decided here and in `byteAt`, once for host accesses and lanes. -/
def leValue (w : Nat) (bs : List Byte) : BitVec w :=
  bs.foldr (fun b acc => acc <<< 8 ||| b.setWidth w) 0

/-- Byte `k` of a value, bits 8k+7 to 8k (20_memory.md R83, R86). -/
def byteAt {w : Nat} (v : BitVec w) (k : Nat) : Byte := v.extractLsb' (8 * k) 8

/-- The first `n` bytes of a value, byte 0 first (20_memory.md R83). -/
def leBytes {w : Nat} (v : BitVec w) (n : Nat) : List Byte := (List.range n).map (byteAt v)

/-- Byte `k` of a sparse buffer: its value, or none where it is unwritten (20_memory.md R99). -/
def Memory.read : Memory → Nat → Option Byte
  | [], _ => none
  | (a, b) :: m, k => if a = k then some b else Memory.read m k

/-- Byte `k` of a sparse buffer becomes `v`; the indices stay strictly rising. -/
def Memory.write : Memory → Nat → Byte → Memory
  | [], k, v => [(k, v)]
  | (a, b) :: m, k, v =>
    if k < a then (k, v) :: (a, b) :: m
    else if k = a then (k, v) :: m
    else (a, b) :: Memory.write m k v

/-- Bytes `k`, `k + 1`, … of a sparse buffer become those of the list. -/
def Memory.writeBytes : Memory → Nat → List Byte → Memory
  | m, _, [] => m
  | m, k, b :: bs => Memory.writeBytes (Memory.write m k b) (k + 1) bs

/-- Bytes `k` to `k + count - 1` of a sparse buffer, or the index of the first unwritten one among them (20_memory.md R99). -/
def Memory.gather (m : Memory) : (count k : Nat) → Except Nat (List Byte)
  | 0, _ => .ok []
  | count + 1, k =>
    match Memory.read m k with
    | none => .error k
    | some b =>
      match Memory.gather m count (k + 1) with
      | .ok bs   => .ok (b :: bs)
      | .error j => .error j

/-- Bytes `k`, `k + 1`, … of a fixed-size buffer become those of the list. -/
def writeVector {n : Nat} : Vector Byte n → Nat → List Byte → Vector Byte n
  | v, _, [] => v
  | v, k, b :: bs => writeVector (v.setIfInBounds k b) (k + 1) bs

/-- A bus error ends the access, changes no state of the core and is recorded in the fault list (20_memory.md R85). -/
def State.recordBusError (e : BusError) (s : State) : State := { s with busErrors := s.busErrors ++ [e] }

/-- The value of a Read is returned to its host (20_memory.md R80). -/
def State.returnValue (r : Reply) (s : State) : State := { s with returned := s.returned ++ [r] }

/-- The platform's reset: every piece of state takes its reset value, the fault list among them; the parameters do not
change (70_reset_and_hazards.md R380). What the hosts were answered, and the inputs still to come, are outside the core
and stay (log entry 4). -/
def State.afterReset (s : State) : State :=
  { State.resetWith s.params with inputs := s.inputs, issuer := s.issuer, returned := s.returned }

end Sys2Proof.Machine
end

