-- ==== Sys2Proof/Machine/Flags.lean ====
section
/-! DEFINITION. STATUS. The core has no condition codes and no arithmetic flags (10_state.md rule R49): the only status a
program can test is STATUS.RESULT and STATUS.LASTOP, which every command writes last (60_exceptions.md rule R351). -/

namespace Sys2Proof.Machine

/-- The code STATUS[7:0] holds (60_exceptions.md R350). -/
def resultByte : ResultCode → Byte
  | .ok          => 0x00
  | .errParams   => 0x01
  | .errRateZero => 0x02
  | .errInlen    => 0x03
  | .errOutlen   => 0x04
  | .errOpcode   => 0x05
  | .errReserved => 0x06
  | .none        => 0xFF

/-- STATUS as a Read returns it: RESULT in bits 7:0, LASTOP in bits 15:8, and 31:16 hardwired 0 (10_state.md R34). -/
def statusWord (s : State) : Word := 0#16 ++ s.lastop ++ resultByte s.result

/-- SUFFIX as a Read returns it: bits 31:8 read as 0 (10_state.md R38). -/
def suffixWord (s : State) : Word := 0#24 ++ s.suffix

/-- The STATUS update every command ends with: `RESULT <- code; LASTOP <- op` (60_exceptions.md R351). -/
def State.finish (code : ResultCode) (op : Byte) (s : State) : State := { s with result := code, lastop := op }

/-- A command that completes: RESULT is OK (60_exceptions.md R351). -/
def complete (op : Byte) (s : State) : Host.Outcome State Fault Refusal := .next (s.finish .ok op)

/-- A command that fails changes STATUS and nothing else (60_exceptions.md R353). -/
def failWith (code : ResultCode) (op : Byte) (s : State) : Host.Outcome State Fault Refusal := .next (s.finish code op)

end Sys2Proof.Machine
end

