-- ==== Sys2Proof/Machine/Operands.lean ====
section
/-! DEFINITION. Where a command takes its operands from (30_encoding.md rule R126, 20_memory.md rule R98): the key selected
by KEYIDX, and the message in IBUF. The other operands are registers read whole as unsigned values, SUFFIX as SUFFIX[7:0]. -/

namespace Sys2Proof.Machine

/-- The first key a table lists under an index. -/
def lookupKey (k : Word) : List (Word × Block) → Option Block
  | [] => none
  | (j, key) :: rest => if j = k then some key else lookupKey k rest

/-- KEYS: a 32-bit index to none or a key, with KEYS(0) the default key (00_scope.md R12). -/
def keys (p : Params) (k : Word) : Option Block :=
  if k = 0 then some p.defaultKey else lookupKey k p.otherKeys

/-- ResolveKey: the index used and the key, an unknown index falling back to index 0 (41_aes_key_schedule.md R200). -/
def resolveKey (p : Params) (k : Word) : Word × Block :=
  match keys p k with
  | some key => (k, key)
  | none     => (0, p.defaultKey)

/-- The message IBUF[0 .. n-1], or the index of its first unwritten byte (44_sponge.md R309). -/
def message (s : State) (n : Nat) : Except Nat (List Byte) := Memory.gather s.ibuf n 0

end Sys2Proof.Machine
end

