-- ==== Sys2Proof/Machine/AesCommands.lean ====
section
/-! DEFINITION. The meanings of EXPANDKEY, ENCRYPT and DECRYPT (41_aes_key_schedule.md rule R204, 42_aes_cipher.md rules
R232 and R233). None of them can fail (60_exceptions.md rule R354). -/

namespace Sys2Proof.Machine

/-- What the three commands share: the key that KEYIDX selects is expanded into KSCHED, and KEYUSED tells the index used
(R200, R201). -/
def State.expandSelectedKey (s : State) : State :=
  { s with ksched := expandKey (resolveKey s.params s.keyidx).2, keyused := (resolveKey s.params s.keyidx).1 }

/-- EXPANDKEY (R204). -/
def execExpandkey (s : State) : Host.Outcome State Fault Refusal := complete 0x01 s.expandSelectedKey

/-- ENCRYPT (R232): BLOCK is encrypted in place under the schedule just written. -/
def execEncrypt (s : State) : Host.Outcome State Fault Refusal :=
  let t := s.expandSelectedKey
  complete 0x02 { t with block := cipher t.block t.ksched }

/-- DECRYPT (R233): BLOCK is decrypted in place under the schedule just written. -/
def execDecrypt (s : State) : Host.Outcome State Fault Refusal :=
  let t := s.expandSelectedKey
  complete 0x03 { t with block := invCipher t.block t.ksched }

end Sys2Proof.Machine
end

