-- ==== Sys2Proof/Machine/Keccak.lean ====
section
/-! DEFINITION. The Keccak-f[1600] permutation as pure functions over a 5 by 5 array of lanes, and the command KECCAKF
(43_keccak_permutation.md). Coordinates are `Fin 5`, whose arithmetic is mod 5 (R260). -/

namespace Sys2Proof.Machine

/-- The 5 by 5 array A of R260: lane (x, y) is entry x + 5y. -/
abbrev Lanes := Vector Lane 25

/-- A[x][y] (R260). -/
def lane (a : Lanes) (x y : Fin 5) : Lane := a[x.val + 5 * y.val]

/-- The array whose lane (x, y) is `f x y`. -/
def ofLanes (f : Fin 5 → Fin 5 → Lane) : Lanes :=
  Vector.ofFn fun i : Fin 25 => f ⟨i.val % 5, by omega⟩ ⟨i.val / 5, by omega⟩

/-- `A[x][y] <- v`. -/
def setLane (a : Lanes) (x y : Fin 5) (v : Lane) : Lanes := a.set (x.val + 5 * y.val) v

/-- Lanes(S): lane (x, y) is the little-endian value of bytes 8(x+5y) to 8(x+5y)+7 (R260, 10_state.md R43). -/
def lanesOf (s : KeccakState) : Lanes :=
  ofLanes fun x y => leValue 64 ((List.finRange 8).map fun k => s[8 * (x.val + 5 * y.val) + k.val])

/-- Bytes(A), the inverse of Lanes (R260). -/
def bytesOf (a : Lanes) : KeccakState := Vector.ofFn fun i : Fin 200 => byteAt a[i.val / 8] (i.val % 8)

/-- C[x], the parity of column x (R261). -/
def columnParity (a : Lanes) (x : Fin 5) : Lane := lane a x 0 ^^^ lane a x 1 ^^^ lane a x 2 ^^^ lane a x 3 ^^^ lane a x 4

/-- Theta (R261). -/
def theta (a : Lanes) : Lanes :=
  let parity : Vector Lane 5 := Vector.ofFn (columnParity a)
  let correction : Vector Lane 5 := Vector.ofFn fun x : Fin 5 => parity[x + 4] ^^^ parity[x + 1].rotateLeft 1
  ofLanes fun x y => lane a x y ^^^ correction[x]

/-- The working variables of RhoPi's walk (R262): the array being written, the position, and the lane in hand. -/
structure Walk where
  b       : Lanes
  x       : Fin 5
  y       : Fin 5
  current : Lane

/-- Step `t` of RhoPi's walk (R262). -/
def walkStep (w : Walk) (t : Nat) : Walk :=
  let r := ((t + 1) * (t + 2) / 2) % 64
  let x := w.y
  let y := 2 * w.x + 3 * w.y
  { b := setLane w.b x y (w.current.rotateLeft r), x := x, y := y, current := lane w.b x y }

/-- RhoPi: the walk from (1, 0) over 24 positions (R262). -/
def rhoPi (a : Lanes) : Lanes :=
  ((List.range 24).foldl walkStep { b := a, x := 1, y := 0, current := lane a 1 0 }).b

/-- Chi, on values captured before any write (R264). -/
def chi (a : Lanes) : Lanes := ofLanes fun x y => lane a x y ^^^ (~~~lane a (x + 1) y &&& lane a (x + 2) y)

/-- LFSRStep: the output bit and the next register (R265). -/
def lfsrStep (r : Byte) : Bool × Byte := (r.getLsbD 0, if r.getLsbD 7 then (r <<< 1) ^^^ 0x71 else r <<< 1)

/-- One draw of RoundConstant: output j goes to lane bit 2^j - 1 (R266). -/
def drawBit (p : Lane × Byte) (j : Nat) : Lane × Byte :=
  let (bit, r) := lfsrStep p.2
  (if bit then p.1 ^^^ (1#64 <<< (2 ^ j - 1)) else p.1, r)

/-- RoundConstant: seven draws from the LFSR (R266). -/
def roundConstant (r : Byte) : Lane × Byte := (List.range 7).foldl drawBit (0, r)

/-- Iota: the round constant joins lane (0, 0) (R267). -/
def iota (a : Lanes) (rc : Lane) : Lanes := setLane a 0 0 (lane a 0 0 ^^^ rc)

/-- One round, theta, rho and pi, chi, iota in this order (R269). -/
def keccakRound (a : Lanes) (rc : Lane) : Lanes := iota (chi (rhoPi (theta a))) rc

/-- One turn of KeccakF's loop: draw the round constant, apply the round (R270). -/
def permuteStep (p : Lanes × Byte) : Lanes × Byte :=
  let (rc, r) := roundConstant p.2
  (keccakRound p.1 rc, r)

/-- `n` rounds from an array and an LFSR register (R270). -/
def permute : Nat → Lanes × Byte → Lanes × Byte
  | 0, p => p
  | n + 1, p => permute n (permuteStep p)

/-- KeccakF, 24 rounds with the LFSR started afresh at 0x01 (R270). -/
def keccakF (s : KeccakState) : KeccakState := bytesOf (permute 24 (lanesOf s, 0x01)).1

/-- KECCAKF (R271): KSTATE is permuted in place. -/
def execKeccakf (s : State) : Host.Outcome State Fault Refusal := complete 0x10 { s with kstate := keccakF s.kstate }

end Sys2Proof.Machine
end

