-- ==== Sys2Proof/Machine/Sponge.lean ====
section
/-! DEFINITION. The sponge driver and the common body of the seven sponge commands (44_sponge.md rules R300 to R309). Lengths
and parameters are exact integers (00_scope.md rule R14). The phases of R308 exist only inside `sponge`. -/

namespace Sys2Proof.Machine

/-- ParamsOK: the rate and capacity in bits sum to 1600, exactly, and the rate is a whole number of bytes (R300). -/
def paramsOk (rt cp : Nat) : Bool := rt + cp == 1600 && rt % 8 == 0

/-- The working state with the bytes of `bs` joined into its leading bytes (R303). -/
def xorInto (s : KeccakState) (bs : List Byte) : KeccakState :=
  Vector.ofFn fun k : Fin 200 =>
    match bs[k.val]? with
    | some b => s[k] ^^^ b
    | none   => s[k]

/-- The working state with `b` joined into byte `k` (R304). -/
def xorByte (s : KeccakState) (k : Nat) (b : Byte) : KeccakState :=
  Vector.ofFn fun j : Fin 200 => if j.val = k then s[j] ^^^ b else s[j]

/-- Absorb `m` full chunks of `rb` bytes, a permutation after each, then the partial chunk, with none (R303). -/
def absorbChunks (rb : Nat) : Nat → KeccakState → List Byte → KeccakState
  | 0, s, msg => xorInto s msg
  | m + 1, s, msg => absorbChunks rb m (keccakF (xorInto s (msg.take rb))) (msg.drop rb)

/-- Absorb a message whose full chunks number `length / rb` (R303). -/
def absorb (rb : Nat) (s : KeccakState) (msg : List Byte) : KeccakState := absorbChunks rb (msg.length / rb) s msg

/-- Pad at offset `off` of the rate window with the suffix byte `sf` (R304). -/
def pad (rb : Nat) (sf : Byte) (off : Nat) (s : KeccakState) : KeccakState :=
  let s1 := xorByte s off sf
  let s2 := if sf.getLsbD 7 ∧ off = rb - 1 then keccakF s1 else s1
  xorByte s2 (rb - 1) 0x80

/-- Squeeze `len` bytes with at most `fuel` permutations between copies: the bytes, and the state after the last copy
(R306). -/
def squeezeCopies (rb : Nat) : (fuel : Nat) → KeccakState → (len : Nat) → List Byte × KeccakState
  | 0, s, _ => ([], s)
  | fuel + 1, s, len =>
    if len ≤ rb then (s.toList.take len, s)
    else
      let (out, last) := squeezeCopies rb fuel (keccakF s) (len - rb)
      (s.toList.take rb ++ out, last)

/-- Squeeze `len` bytes (R306); with `rb` at least 1 no more than `len` permutations are needed. -/
def squeeze (rb : Nat) (s : KeccakState) (len : Nat) : List Byte × KeccakState := squeezeCopies rb len s len

/-- Sponge(rt, sf, M, L): the output bytes and the final working state (R302, R305, R307). -/
def sponge (rt : Nat) (sf : Byte) (msg : List Byte) (len : Nat) : List Byte × KeccakState :=
  let rb := rt / 8
  let absorbed := absorb rb (Vector.replicate 200 0x00) msg
  squeeze rb (keccakF (pad rb sf (msg.length % rb) absorbed)) len

/-- SpongeCommand(rt, cp, sf, n, L, op): the checks in their order, then the message, then the sponge; OBUF[0 .. L-1] and
KSTATE are written only on success (R309). -/
def spongeCommand (rt cp : Nat) (sf : Byte) (n len : Nat) (op : Byte) (s : State) : Host.Outcome State Fault Refusal :=
  if paramsOk rt cp = false then failWith .errParams op s
  else if rt = 0 then failWith .errRateZero op s
  else if s.params.ibufBytes < n then failWith .errInlen op s
  else if s.params.obufBytes < len then failWith .errOutlen op s
  else match message s n with
    | .error k => .fault (.unwritten s.issuer 0 k)
    | .ok msg =>
      let (out, last) := sponge rt sf msg len
      complete op { s with obuf := Memory.writeBytes s.obuf 0 out, kstate := last }

end Sys2Proof.Machine
end

