-- ==== Sys2Proof/Machine/SpongeCommands.lean ====
section
/-! DEFINITION. The meanings of KECCAK and the six named wrappers (44_sponge.md rules R310 to R317). A wrapper's parameters
are fixed inside it: it reads no RATE, CAPACITY or SUFFIX, and the SHA3 four ignore OUTLEN (R317). -/

namespace Sys2Proof.Machine

/-- KECCAK, every parameter the host's (R310). -/
def execKeccak (s : State) : Host.Outcome State Fault Refusal :=
  spongeCommand s.rate.toNat s.capacity.toNat s.suffix s.inlen.toNat s.outlen.toNat 0x11 s

/-- SHAKE128 (R311). -/
def execShake128 (s : State) : Host.Outcome State Fault Refusal :=
  spongeCommand 1344 256 0x1F s.inlen.toNat s.outlen.toNat 0x20 s

/-- SHAKE256 (R312). -/
def execShake256 (s : State) : Host.Outcome State Fault Refusal :=
  spongeCommand 1088 512 0x1F s.inlen.toNat s.outlen.toNat 0x21 s

/-- SHA3_224 (R313). -/
def execSha3_224 (s : State) : Host.Outcome State Fault Refusal := spongeCommand 1152 448 0x06 s.inlen.toNat 28 0x22 s

/-- SHA3_256 (R314). -/
def execSha3_256 (s : State) : Host.Outcome State Fault Refusal := spongeCommand 1088 512 0x06 s.inlen.toNat 32 0x23 s

/-- SHA3_384 (R315). -/
def execSha3_384 (s : State) : Host.Outcome State Fault Refusal := spongeCommand 832 768 0x06 s.inlen.toNat 48 0x24 s

/-- SHA3_512 (R316). -/
def execSha3_512 (s : State) : Host.Outcome State Fault Refusal := spongeCommand 576 1024 0x06 s.inlen.toNat 64 0x25 s

end Sys2Proof.Machine
end

