-- ==== Sys2Proof/Machine/Dispatch.lean ====
section
/-! DEFINITION. The meaning of each command (30_encoding.md rule R122), one arm per row of spec/opcode_table.json. -/

namespace Sys2Proof.Machine

def exec (i : Instr) (s : State) : Host.Outcome State Fault Refusal :=
  match i with
  | .expandkey => Sys2Proof.Machine.execExpandkey s
  | .encrypt => Sys2Proof.Machine.execEncrypt s
  | .decrypt => Sys2Proof.Machine.execDecrypt s
  | .keccakf => Sys2Proof.Machine.execKeccakf s
  | .keccak => Sys2Proof.Machine.execKeccak s
  | .shake128 => Sys2Proof.Machine.execShake128 s
  | .shake256 => Sys2Proof.Machine.execShake256 s
  | .sha3_224 => Sys2Proof.Machine.execSha3_224 s
  | .sha3_256 => Sys2Proof.Machine.execSha3_256 s
  | .sha3_384 => Sys2Proof.Machine.execSha3_384 s
  | .sha3_512 => Sys2Proof.Machine.execSha3_512 s

end Sys2Proof.Machine
end

