-- ==== Sys2Proof/Machine/HostMap.lean ====
section
/-! DEFINITION. The host-interface map and what an access finds there (10_state.md rule R32, 20_memory.md rules R81 to R83):
the checks, the value of a Read, and the effect of a Write on the location it reaches. A Write of CMD goes on to perform the
command (Machine/HostPort.lean). -/

namespace Sys2Proof.Machine

/-- The map of R32 for the given parameters. -/
def hostMap (p : Params) : List MapEntry :=
  [⟨.cmd,      0x000,   4,           true,  .rw⟩,
   ⟨.status,   0x004,   4,           true,  .ro⟩,
   ⟨.keyidx,   0x008,   4,           true,  .rw⟩,
   ⟨.keyused,  0x00C,   4,           true,  .ro⟩,
   ⟨.rate,     0x010,   4,           true,  .rw⟩,
   ⟨.capacity, 0x014,   4,           true,  .rw⟩,
   ⟨.suffix,   0x018,   4,           true,  .rw⟩,
   ⟨.inlen,    0x01C,   4,           true,  .rw⟩,
   ⟨.outlen,   0x020,   4,           true,  .rw⟩,
   ⟨.ibufsize, 0x024,   4,           true,  .ro⟩,
   ⟨.obufsize, 0x028,   4,           true,  .ro⟩,
   ⟨.block,    0x100,   16,          false, .rw⟩,
   ⟨.ksched,   0x200,   176,         false, .ro⟩,
   ⟨.kstate,   0x400,   200,         false, .rw⟩,
   ⟨.ibuf,     0x10000, p.ibufBytes, false, .rw⟩,
   ⟨.obuf,     0x20000, p.obufBytes, false, .rw⟩]

/-- The byte at offset `k` lies in the location of an entry. -/
def covers (k : Nat) (e : MapEntry) : Bool := decide (e.base ≤ k ∧ k < e.base + e.size)

/-- The location that contains the byte at offset `k`, none where the offset is unmapped (R32). -/
def locate (p : Params) (k : Nat) : Option MapEntry := (hostMap p).find? (covers k)

/-- Check(kind, off, n): the first failing test decides the reason (R81). -/
def checkAccess (p : Params) (kind : AccessKind) (off : Word) (n : Nat) : Except BusReason MapEntry :=
  if n ≠ 1 ∧ n ≠ 4 then .error .width
  else if off.toNat % n ≠ 0 then .error .misaligned
  else match locate p off.toNat with
    | none => .error .unmapped
    | some e =>
      if covers (off.toNat + n - 1) e = false then .error .unmapped
      else if e.isRegister = true ∧ n ≠ 4 then .error .width
      else if kind = .write ∧ e.rights = .ro then .error .readonly
      else .ok e

/-- The 32-bit value of a register, reserved fields 0; none for a buffer (R82, 10_state.md R33 to R40). -/
def readRegister (s : State) : Location → Option Word
  | .cmd      => some s.cmd
  | .status   => some (statusWord s)
  | .keyidx   => some s.keyidx
  | .keyused  => some s.keyused
  | .rate     => some s.rate
  | .capacity => some s.capacity
  | .suffix   => some (suffixWord s)
  | .inlen    => some s.inlen
  | .outlen   => some s.outlen
  | .ibufsize => some (BitVec.ofNat 32 s.params.ibufBytes)
  | .obufsize => some (BitVec.ofNat 32 s.params.obufBytes)
  | .block | .ksched | .kstate | .ibuf | .obuf => none

/-- Byte `k` of a buffer; none where it is unwritten or past the end, and for a register (10_state.md R41 to R45). -/
def readBufferByte (s : State) (loc : Location) (k : Nat) : Option Byte :=
  match loc with
  | .block  => s.block[k]?
  | .ksched => s.ksched[k]?
  | .kstate => s.kstate[k]?
  | .ibuf   => Memory.read s.ibuf k
  | .obuf   => Memory.read s.obuf k
  | .cmd | .status | .keyidx | .keyused | .rate | .capacity | .suffix | .inlen | .outlen | .ibufsize | .obufsize => none

/-- Bytes `k` to `k + n - 1` of a buffer, none if one of them is unwritten (R82). -/
def readBufferBytes (s : State) (loc : Location) : (n k : Nat) → Option (List Byte)
  | 0, _ => some []
  | n + 1, k =>
    match readBufferByte s loc k, readBufferBytes s loc n (k + 1) with
    | some b, some bs => some (b :: bs)
    | _, _ => none

/-- What MemRead returns from byte `k` of a location, `n` bytes wide; none where the access covers an unwritten byte (R82). -/
def readLocation (s : State) (loc : Location) (k n : Nat) : Option Word :=
  match readRegister s loc with
  | some w => some w
  | none =>
    match readBufferBytes s loc n k with
    | some bs => some (leValue 32 bs)
    | none    => none

/-- What MemWrite stores at byte `k` of a location, `n` bytes wide (R83). Check refuses every Write of a read-only location,
and this operation leaves those unchanged. -/
def writeLocation (loc : Location) (k n : Nat) (v : Word) (s : State) : State :=
  match loc with
  | .cmd      => { s with cmd := v }
  | .keyidx   => { s with keyidx := v }
  | .rate     => { s with rate := v }
  | .capacity => { s with capacity := v }
  | .suffix   => { s with suffix := v.extractLsb' 0 8 }
  | .inlen    => { s with inlen := v }
  | .outlen   => { s with outlen := v }
  | .block    => { s with block := writeVector s.block k (leBytes v n) }
  | .kstate   => { s with kstate := writeVector s.kstate k (leBytes v n) }
  | .ibuf     => { s with ibuf := Memory.writeBytes s.ibuf k (leBytes v n) }
  | .obuf     => { s with obuf := Memory.writeBytes s.obuf k (leBytes v n) }
  | .status | .keyused | .ibufsize | .obufsize | .ksched => s

end Sys2Proof.Machine
end

