-- ==== Sys2Proof/Machine/HostPort.lean ====
section
/-! DEFINITION. The host port: what one input does to the core (20_memory.md rules R80 to R85, 30_encoding.md rule R122,
70_reset_and_hazards.md rule R380). This is the core's only way to run a command: it fetches no instructions
(10_state.md rule R31). -/

namespace Sys2Proof.Machine

/-- Perform(v): the command the word selects, or its failure code with LASTOP = v[7:0] (30_encoding.md R122 to R124). -/
def perform (v : Word) (s : State) : Host.Outcome State Fault Refusal :=
  match decode v with
  | .ok i                    => exec i s
  | .error .reserved         => failWith .errReserved (opcodeField v) s
  | .error .undefinedOpcode  => failWith .errOpcode (opcodeField v) s

/-- A Read: MemRead(off, n), its value returned to the host; a bus error returns none (20_memory.md R80, R82, R85). -/
def performRead (a : Access) (s : State) : Host.Outcome State Fault Refusal :=
  match checkAccess s.params .read a.off a.n with
  | .error reason => .next (s.recordBusError ⟨a.host, .read, a.off, a.n, reason⟩)
  | .ok e =>
    match readLocation s e.loc (a.off.toNat - e.base) a.n with
    | some v => .next (s.returnValue ⟨a.host, a.off, a.n, v⟩)
    | none   => .fault (.unwritten a.host a.off a.n)

/-- A Write: MemWrite(off, n, v); a Write of CMD sets CMD and then performs the command (20_memory.md R83, R85). -/
def performWrite (a : Access) (s : State) : Host.Outcome State Fault Refusal :=
  match checkAccess s.params .write a.off a.n with
  | .error reason => .next (s.recordBusError ⟨a.host, .write, a.off, a.n, reason⟩)
  | .ok e =>
    let t := writeLocation e.loc (a.off.toNat - e.base) a.n a.value s
    if e.loc = .cmd then perform a.value t else .next t

/-- One host access (20_memory.md R80) by a host context that exists (00_scope.md R10). -/
def performAccess (a : Access) (s : State) : Host.Outcome State Fault Refusal :=
  if a.host < s.params.numHosts then
    match a.kind with
    | .read  => performRead a { s with issuer := a.host }
    | .write => performWrite a { s with issuer := a.host }
  else .refused (.noSuchHost a.host)

/-- The next input, if there is one; with none pending the core is idle and keeps all its state (60_exceptions.md R362). -/
def performNext (s : State) : Host.Outcome State Fault Refusal :=
  match s.inputs with
  | []                => .next s
  | .reset :: rest    => .next ({ s with inputs := rest }.afterReset)
  | .access a :: rest => performAccess a { s with inputs := rest }

/-- The access that writes a command word to CMD, by host context 0, which always exists (10_state.md R33). -/
def commandWrite (v : Word) : Access := ⟨0, .write, 0x000, 4, v⟩

end Sys2Proof.Machine
end

