-- ==== Sys2Proof/Machine/Step.lean ====
section
/-! DEFINITION. One step of the machine: one input, a host access or a reset, performed whole (00_scope.md rule R20). -/

namespace Sys2Proof.Machine

/-- One atomic transition of the whole core state (00_scope.md R20, 20_memory.md R90). -/
def step (s : State) : Host.Outcome State Fault Refusal := performNext s

/-- The state whose next input is a Write of a table row's word to CMD, ahead of every other input (log entry 3). The core
fetches nothing: a command word is taken from the CMD write itself (20_memory.md R96). -/
def State.withFetchWord (s : State) (nbits w : Nat) : State :=
  { s with inputs := .access (commandWrite (tableWord nbits w)) :: s.inputs }

end Sys2Proof.Machine
end

