-- ==== Sys2Proof/Machine/HostProgram.lean ====
section
/-! DEFINITION. Host programs: the statements and pseudo-instructions of 30_encoding.md rules R127 and R128, and the host
accesses they expand to. Machine/Assembler.lean reads their text form. -/

namespace Sys2Proof.Machine

/-- A statement of a host program: the four primitive ones (R127), then the pseudo-instructions (R128). -/
inductive Statement where
  /-- `WR32 off, val`. -/
  | wr32 (off value : Word)
  /-- `WR8 off, val`. -/
  | wr8 (off : Word) (value : Byte)
  /-- `RD32 off`. -/
  | rd32 (off : Word)
  /-- `RD8 off`. -/
  | rd8 (off : Word)
  /-- `<mnemonic>`. -/
  | command (i : Instr)
  /-- `CMDW val`, any word, including reserved ones. -/
  | cmdw (v : Word)
  /-- `SETKEY k`. -/
  | setkey (k : Word)
  /-- `LOADBLK b0 … b15`. -/
  | loadblk (b : Block)
  /-- `SPONGE r, c, s`. -/
  | sponge (r c s : Word)
  /-- `LENS i, o`. -/
  | lens (i o : Word)
  /-- `LOADMSG m0 … m(k-1)`. -/
  | loadmsg (m : List Byte)
  /-- `FILLOUT n, b`. -/
  | fillout (n : Nat) (b : Byte)
  deriving DecidableEq, Repr

/-- `WR32` by a host context (R127). -/
def write32 (host : Nat) (off value : Word) : Access := ⟨host, .write, off, 4, value⟩

/-- `WR8` by a host context (R127). -/
def write8 (host : Nat) (off : Word) (value : Byte) : Access := ⟨host, .write, off, 1, value.setWidth 32⟩

/-- `RD32` by a host context (R127). -/
def read32 (host : Nat) (off : Word) : Access := ⟨host, .read, off, 4, 0⟩

/-- `RD8` by a host context (R127). -/
def read8 (host : Nat) (off : Word) : Access := ⟨host, .read, off, 1, 0⟩

/-- `WR8 off, b0; WR8 off+1, b1; …`. A row too long for its offsets to fit in 32 bits goes on at offset 0 (log entry 21). -/
def writeRow (host : Nat) (off : Word) : List Byte → List Access
  | [] => []
  | b :: bs => write8 host off b :: writeRow host (off + 1) bs

/-- The accesses a statement expands to, in order (R127, R128). -/
def expand (host : Nat) : Statement → List Access
  | .wr32 off v    => [write32 host off v]
  | .wr8 off v     => [write8 host off v]
  | .rd32 off      => [read32 host off]
  | .rd8 off       => [read8 host off]
  | .command i     => [write32 host 0x000 (encode i)]
  | .cmdw v        => [write32 host 0x000 v]
  | .setkey k      => [write32 host 0x008 k]
  | .loadblk b     =>
    [write32 host 0x100 (leValue 32 [b[0], b[1], b[2], b[3]]),
     write32 host 0x104 (leValue 32 [b[4], b[5], b[6], b[7]]),
     write32 host 0x108 (leValue 32 [b[8], b[9], b[10], b[11]]),
     write32 host 0x10C (leValue 32 [b[12], b[13], b[14], b[15]])]
  | .sponge r c s  => [write32 host 0x010 r, write32 host 0x014 c, write32 host 0x018 s]
  | .lens i o      => [write32 host 0x01C i, write32 host 0x020 o]
  | .loadmsg m     => writeRow host 0x10000 m
  | .fillout n b   => writeRow host 0x20000 (List.replicate n b)

/-- The inputs of a host program run by one host context (R127). -/
def assemble (host : Nat) (prog : List Statement) : List Input := (prog.flatMap (expand host)).map .access

end Sys2Proof.Machine
end

