-- ==== Sys2Proof/WellFormed.lean ====
section
/-! DEFINITION. When the data the model is given is well formed: the parameters, the pending host accesses and the sparse
buffers. A command has no operand (30_encoding.md rule R126), so every `Instr` is well formed. -/

namespace Sys2Proof

/-- Every command is well formed: it has no operand field to check (R126). -/
abbrev Instr.WellFormed (_ : Instr) : Prop := True

/-- The ranges of the parameters (00_scope.md R10). KEYS(0) is defined by the form of `Params` (R12). -/
abbrev Params.WellFormed (p : Params) : Prop :=
  p.ibufBytes ≤ 65536 ∧ 64 ≤ p.obufBytes ∧ p.obufBytes ≤ 65536 ∧ 1 ≤ p.numHosts

namespace Machine

/-- The host context exists (00_scope.md R10, R19), and the value of a 1-byte Write is one byte (20_memory.md R80). -/
abbrev Access.WellFormed (p : Params) (a : Access) : Prop :=
  a.host < p.numHosts ∧ (a.kind = .write → a.n = 1 → a.value.toNat < 256)

/-- A reset is always a possible input; an access must be well formed. -/
def Input.wellFormed (p : Params) : Input → Bool
  | .access a => decide (Access.WellFormed p a)
  | .reset    => true

/-- The canonical form of a sparse buffer: indices strictly rising, so none twice. An unlisted byte holds no value, so no
entry can equal what an unlisted byte reads as. -/
abbrev Memory.wf (m : Memory) : Prop := m.Pairwise fun c d => c.1 < d.1

/-- Every listed index lies below the buffer's size. -/
abbrev Memory.Within (m : Memory) (size : Nat) : Prop := ∀ c ∈ m, c.1 < size

end Machine

end Sys2Proof
end

