-- ==== Sys2Proof/Safety.lean ====
section
/-! DEFINITION. What counts as a safe step, and the invariants of the machine, in the terms claims use. -/

namespace Sys2Proof.Machine

/-- The step has a successor state. -/
def State.Proceeds (s : State) : Prop := ∃ t, step s = .next t

/-- The state with one more input, ahead of those pending. -/
def State.offer (i : Input) (s : State) : State := { s with inputs := i :: s.inputs }

/-- Every pending access is one a host context of the machine can make. -/
abbrev State.InputsWellFormed (s : State) : Prop := ∀ i ∈ s.inputs, Input.wellFormed s.params i = true

/-- The sparse buffers are in canonical form and hold nothing beyond their size (10_state.md R44, R45). -/
abbrev State.BuffersWellFormed (s : State) : Prop :=
  Memory.wf s.ibuf ∧ Memory.Within s.ibuf s.params.ibufBytes ∧
  Memory.wf s.obuf ∧ Memory.Within s.obuf s.params.obufBytes

/-- The codes a command can end with, the column "raised by" of 60_exceptions.md R350. -/
def possibleResults : Instr → List ResultCode
  | .expandkey | .encrypt | .decrypt | .keccakf          => [.ok]
  | .keccak                                              => [.ok, .errParams, .errRateZero, .errInlen, .errOutlen]
  | .shake128 | .shake256                                => [.ok, .errInlen, .errOutlen]
  | .sha3_224 | .sha3_256 | .sha3_384 | .sha3_512        => [.ok, .errInlen]

/-- The codes STATUS.RESULT can show beside a CMD word. CMD is 0 and RESULT is NONE only until the first command
(60_exceptions.md R350, 10_state.md R47). -/
def resultsFor (cmd : Word) : List ResultCode :=
  match decode cmd with
  | .ok i                   => possibleResults i
  | .error .reserved        => [.errReserved]
  | .error .undefinedOpcode => if cmd = 0 then [.errOpcode, .none] else [.errOpcode]

/-- STATUS speaks of the word in CMD: LASTOP is CMD[7:0] (10_state.md R34), and RESULT is a code that word can end with. -/
abbrev State.StatusAgrees (s : State) : Prop := s.lastop = opcodeField s.cmd ∧ s.result ∈ resultsFor s.cmd

/-- KEYUSED is an index whose key is provisioned (10_state.md R36). -/
abbrev State.KeyusedProvisioned (s : State) : Prop := keys s.params s.keyused ≠ none

/-- The invariant of the machine. -/
abbrev State.Inv (s : State) : Prop :=
  s.params.WellFormed ∧ s.BuffersWellFormed ∧ s.StatusAgrees ∧ s.KeyusedProvisioned

end Sys2Proof.Machine
end

