-- ==== Sys2Proof/Safety/Reference.lean ====
section
/-! DEFINITION. Second formulations that claims compare the machine with, written from other words of the spec than the
machine's own definitions: the FIPS-197 steps behind the fused passes, the permutation by its lane formulas and
its tables, the sponge as the composition of its phases, the buffers as the map places them, and the priority of failures as
60_exceptions.md rule R352 lists it. The machine uses none of them. -/

namespace Sys2Proof.Reference

open Sys2Proof.Machine

/-! AES (40_aes_primitives.md). -/

/-- The product in GF(2^8): the doublings of `a` picked by the bits of `b`, added (R150). -/
def gfMul (a b : Byte) : Byte :=
  (List.range 8).foldl (fun acc i => if b.getLsbD i then acc ^^^ Nat.iterate xtime i a else acc) 0

/-- The affine map of the S-box (R153). -/
def sboxAffine (b : Byte) : Byte :=
  b ^^^ b.rotateLeft 1 ^^^ b.rotateLeft 2 ^^^ b.rotateLeft 3 ^^^ b.rotateLeft 4 ^^^ 0x63

/-- FIPS-197 SubBytes. -/
def subBytes (s : Block) : Block := s.map sbox

/-- FIPS-197 InvSubBytes. -/
def invSubBytes (s : Block) : Block := s.map invSbox

/-- FIPS-197 ShiftRows: row r moves left by r columns (R157). -/
def shiftRows (s : Block) : Block := ofCells fun r c => cell s r (c + r)

/-- FIPS-197 InvShiftRows (R158). -/
def invShiftRows (s : Block) : Block := ofCells fun r c => cell s r (c - r)

/-- The product of every column by the circulant matrix whose first row is (m0 m1 m2 m3) (R161 to R163). -/
def circulant (m0 m1 m2 m3 : Byte) (s : Block) : Block :=
  ofCells fun j c =>
    gfMul (cell s j c) m0 ^^^ gfMul (cell s (j + 1) c) m1 ^^^ gfMul (cell s (j + 2) c) m2 ^^^ gfMul (cell s (j + 3) c) m3

/-- FIPS-197 Cipher, step by step (R230: "11 key additions, as in FIPS-197 Cipher"). -/
def fipsCipher (s : Block) (w : Schedule) : Block :=
  let start := addRoundKey s (roundKey w 0)
  let middle := ([1, 2, 3, 4, 5, 6, 7, 8, 9] : List (Fin 11)).foldl
    (fun t r => addRoundKey (circulant 0x02 0x03 0x01 0x01 (shiftRows (subBytes t))) (roundKey w r)) start
  addRoundKey (shiftRows (subBytes middle)) (roundKey w 10)

/-- FIPS-197 InvCipher, step by step (R231: "The result is FIPS-197 InvCipher"). -/
def fipsInvCipher (s : Block) (w : Schedule) : Block :=
  let start := addRoundKey s (roundKey w 10)
  let middle := ([9, 8, 7, 6, 5, 4, 3, 2, 1] : List (Fin 11)).foldl
    (fun t r => circulant 0x0e 0x0b 0x0d 0x09 (addRoundKey (invSubBytes (invShiftRows t)) (roundKey w r))) start
  addRoundKey (invSubBytes (invShiftRows middle)) (roundKey w 0)

/-- Byte `k` of a schedule, for the indices 0 to 175 a claim names. -/
def scheduleByte (w : Schedule) (k : Nat) : Byte := w[k]?.getD 0

/-- KEYS(k) (00_scope.md R12) as the parameters hold it: the default key at index 0, else the first key listed under `k`
(log entry 14). -/
def keyAt (p : Params) (k : Word) : Option Block :=
  if k = 0 then some p.defaultKey else (p.otherKeys.find? fun entry => entry.1 = k).map Prod.snd

/-- `u` and `key` are the index used and the key that R200 gives for the key index `k`. -/
def SelectedKey (p : Params) (k u : Word) (key : Block) : Prop :=
  (keyAt p k = some key ∧ u = k) ∨ (keyAt p k = none ∧ u = 0 ∧ key = p.defaultKey)

/-! Keccak (43_keccak_permutation.md). -/

/-- The exclusive or of the five lanes of column x (R261). -/
def columnXor (a : Lanes) (x : Fin 5) : Lane := (List.finRange 5).foldl (fun acc y => acc ^^^ lane a x y) 0

/-- Theta lane by lane, in the words of R261. -/
def thetaByLanes (a : Lanes) : Lanes :=
  ofLanes fun x y => lane a x y ^^^ (columnXor a (x - 1) ^^^ (columnXor a (x + 1)).rotateLeft 1)

/-- RHO[x][y], the grid of R263, one row per y. -/
def rhoGrid : List (List Nat) :=
  [[0, 1, 62, 28, 27],
   [36, 44, 6, 55, 20],
   [3, 10, 43, 25, 39],
   [41, 45, 15, 21, 8],
   [18, 2, 61, 56, 14]]

/-- RHO[x][y] (R263). -/
def rho (x y : Fin 5) : Nat := (rhoGrid.getD y.val []).getD x.val 0

/-- RhoPi lane by lane: lane (u, v) comes rotated from the lane (x, y) with (y, 2x + 3y) = (u, v), which is (u + 3v, u)
(R262, R263). -/
def rhoPiByLanes (a : Lanes) : Lanes := ofLanes fun u v => (lane a (u + 3 * v) u).rotateLeft (rho (u + 3 * v) u)

/-- Chi lane by lane (R264). -/
def chiByLanes (a : Lanes) : Lanes := ofLanes fun x y => lane a x y ^^^ (~~~lane a (x + 1) y &&& lane a (x + 2) y)

/-- Iota lane by lane (R267). -/
def iotaByLanes (a : Lanes) (rc : Lane) : Lanes :=
  ofLanes fun x y => if x = 0 ∧ y = 0 then lane a x y ^^^ rc else lane a x y

/-- One round: theta, then rho and pi, then chi, then iota (R269). -/
def roundByLanes (a : Lanes) (rc : Lane) : Lanes := iotaByLanes (chiByLanes (rhoPiByLanes (thetaByLanes a))) rc

/-- The rows of R268's table: the constant of round r and that of round r + 12, for r = 0 to 11. -/
def roundConstantRows : List (Lane × Lane) :=
  [(0x0000000000000001, 0x000000008000808B),
   (0x0000000000008082, 0x800000000000008B),
   (0x800000000000808A, 0x8000000000008089),
   (0x8000000080008000, 0x8000000000008003),
   (0x000000000000808B, 0x8000000000008002),
   (0x0000000080000001, 0x8000000000000080),
   (0x8000000080008081, 0x000000000000800A),
   (0x8000000000008009, 0x800000008000000A),
   (0x000000000000008A, 0x8000000080008081),
   (0x0000000000000088, 0x8000000000008080),
   (0x0000000080008009, 0x0000000080000001),
   (0x000000008000000A, 0x8000000080008008)]

/-- The 24 round constants of R268: the left column of its table, then the right one. -/
def roundConstants : List Lane := roundConstantRows.map Prod.fst ++ roundConstantRows.map Prod.snd

/-- The first `n` round constants drawn from an LFSR register (R266, R270). -/
def constantsFrom : Nat → Byte → List Lane
  | 0, _ => []
  | n + 1, r => (roundConstant r).1 :: constantsFrom n (roundConstant r).2

/-- Keccak-f[1600]: 24 rounds by the lane formulas, with the table of R268 in place of the LFSR (R268 to R270). -/
def keccakFByLanes (s : KeccakState) : KeccakState := bytesOf (roundConstants.foldl roundByLanes (lanesOf s))

/-! Buffers (10_state.md R32, R41 to R45). -/

/-- A buffer: where the map places it, its size, and its byte at an index, none where it is unwritten. -/
structure Buffer where
  base : Nat
  size : Nat
  byte : Nat → Option Byte

/-- BLOCK, KSCHED, KSTATE, IBUF and OBUF. -/
def buffers (s : State) : List Buffer :=
  [⟨0x100,   16,                 fun k => s.block[k]?⟩,
   ⟨0x200,   176,                fun k => s.ksched[k]?⟩,
   ⟨0x400,   200,                fun k => s.kstate[k]?⟩,
   ⟨0x10000, s.params.ibufBytes, Memory.read s.ibuf⟩,
   ⟨0x20000, s.params.obufBytes, Memory.read s.obuf⟩]

/-! Commands (44_sponge.md, 60_exceptions.md). -/

/-- The operands of a sponge command (44_sponge.md R309). -/
structure SpongeOperands where
  rate      : Nat
  capacity  : Nat
  suffix    : Byte
  length    : Nat
  outLength : Nat

/-- The operands of the sponge command a command word selects, none for another word (44_sponge.md R310 to R316). -/
def spongeOperands (v : Word) (s : State) : Option SpongeOperands :=
  if v = 0x00000011 then some ⟨s.rate.toNat, s.capacity.toNat, s.suffix, s.inlen.toNat, s.outlen.toNat⟩
  else if v = 0x00000020 then some ⟨1344, 256, 0x1F, s.inlen.toNat, s.outlen.toNat⟩
  else if v = 0x00000021 then some ⟨1088, 512, 0x1F, s.inlen.toNat, s.outlen.toNat⟩
  else if v = 0x00000022 then some ⟨1152, 448, 0x06, s.inlen.toNat, 28⟩
  else if v = 0x00000023 then some ⟨1088, 512, 0x06, s.inlen.toNat, 32⟩
  else if v = 0x00000024 then some ⟨832, 768, 0x06, s.inlen.toNat, 48⟩
  else if v = 0x00000025 then some ⟨576, 1024, 0x06, s.inlen.toNat, 64⟩
  else none

/-- The defined opcodes of 30_encoding.md R122. -/
def definedOpcodes : List Nat := [0x01, 0x02, 0x03, 0x10, 0x11, 0x20, 0x21, 0x22, 0x23, 0x24, 0x25]

/-- The first failure that applies to a command word, in the order of 60_exceptions.md R352; none if no failure does. -/
def firstFailure (v : Word) (s : State) : Option ResultCode :=
  if 256 ≤ v.toNat then some .errReserved
  else if v.toNat ∉ definedOpcodes then some .errOpcode
  else match spongeOperands v s with
    | none => none
    | some o =>
      if o.rate + o.capacity ≠ 1600 ∨ o.rate % 8 ≠ 0 then some .errParams
      else if o.rate = 0 then some .errRateZero
      else if s.params.ibufBytes < o.length then some .errInlen
      else if s.params.obufBytes < o.outLength then some .errOutlen
      else none

/-- Every byte of IBUF[0 .. n-1] has been written, and `msg` is those bytes (44_sponge.md R309). -/
def IsMessage (s : State) (n : Nat) (msg : List Byte) : Prop :=
  msg.length = n ∧ ∀ k, k < n → Memory.read s.ibuf k = msg[k]?

/-- The working state that enters squeezing: 200 zero bytes, the message absorbed, padded at the offset that absorbing leaves,
then permuted once more (44_sponge.md R302 to R305). -/
def squeezeStart (rate : Nat) (suffix : Byte) (msg : List Byte) : KeccakState :=
  keccakF (pad (rate / 8) suffix (msg.length % (rate / 8)) (absorb (rate / 8) (Vector.replicate 200 0x00) msg))

/-- The output bytes and the final working state of Sponge, the composition of its phases (44_sponge.md R307). -/
def spongeByPhases (rate : Nat) (suffix : Byte) (msg : List Byte) (len : Nat) : List Byte × KeccakState :=
  squeeze (rate / 8) (squeezeStart rate suffix msg) len

/-- `t` is what a successful sponge command leaves (44_sponge.md R309): STATUS, KSTATE and OBUF[0 .. L-1] written, every other
byte of OBUF and all other state as before. -/
def SpongeResult (s t : State) (op : Byte) (rate : Nat) (suffix : Byte) (msg : List Byte) (len : Nat) : Prop :=
  t = { s with result := .ok, lastop := op, kstate := (spongeByPhases rate suffix msg len).2, obuf := t.obuf } ∧
  (spongeByPhases rate suffix msg len).1.length = len ∧
  ∀ k, Memory.read t.obuf k =
    if k < len then (spongeByPhases rate suffix msg len).1[k]? else Memory.read s.obuf k

/-- What a function of states makes of an outcome's next state; a stop stays the same stop. -/
def mapNext (f : State → State) : Host.Outcome State Fault Refusal → Host.Outcome State Fault Refusal
  | .next s    => .next (f s)
  | .fault r   => .fault r
  | .refused r => .refused r

end Sys2Proof.Reference
end

