-- ==== Sys2Proof/Certificates/Slice0/Obligations.lean ====
section
/-! DEFINITION. The statements for the provers, from the spec's numbered rules. `State.offer` puts one input ahead of those
pending, so `step (s.offer i)` is the step that performs the input `i` from `s`. Where a next state is written as a record
update of `s`, every field it does not name is unchanged. -/

open Sys2Proof Sys2Proof.Machine Sys2Proof.Reference

/-! Encoding (30_encoding.md). -/

/-- Decoding and encoding agree: a word decodes to a command exactly when it is that command's encoding, so decoding the
encoding gives the command back and no two words mean one command (R120, R122). -/
def Obligations.DecodeAgreesWithEncode : Prop := ∀ (v : Word) (i : Instr), decode v = .ok i ↔ v = encode i

/-- The eleven command words of the opcode map, written out, decode to their commands (R122). -/
def Obligations.TableWordsDecode : Prop :=
  decode 0x00000001 = .ok .expandkey ∧ decode 0x00000002 = .ok .encrypt ∧ decode 0x00000003 = .ok .decrypt ∧
  decode 0x00000010 = .ok .keccakf ∧ decode 0x00000011 = .ok .keccak ∧ decode 0x00000020 = .ok .shake128 ∧
  decode 0x00000021 = .ok .shake256 ∧ decode 0x00000022 = .ok .sha3_224 ∧ decode 0x00000023 = .ok .sha3_256 ∧
  decode 0x00000024 = .ok .sha3_384 ∧ decode 0x00000025 = .ok .sha3_512

/-- A word with a reserved bit set, whatever its opcode, writes ERR_RESERVED (0x06) and LASTOP and nothing else (R123), and an
undefined opcode with the reserved bits 0 writes ERR_OPCODE (0x05) and LASTOP and nothing else (R124). -/
def Obligations.ReservedAndUndefinedWordsWriteStatusOnly : Prop :=
  (resultByte .errReserved = 0x06 ∧
    ∀ (s : State) (v : Word), v.extractLsb' 8 24 ≠ 0 →
      perform v s = .next { s with result := .errReserved, lastop := v.extractLsb' 0 8 }) ∧
  (resultByte .errOpcode = 0x05 ∧
    ∀ (s : State) (v : Word),
      v.toNat = 0x00 ∨ (0x04 ≤ v.toNat ∧ v.toNat ≤ 0x0F) ∨ (0x12 ≤ v.toNat ∧ v.toNat ≤ 0x1F) ∨
        (0x26 ≤ v.toNat ∧ v.toNat ≤ 0xFF) →
      perform v s = .next { s with result := .errOpcode, lastop := v.extractLsb' 0 8 })

/-! Performing a command word (10_state.md, 60_exceptions.md). -/

/-- When the next input is a write to CMD, the step performs the word, whatever it is, from the state with CMD written, the
input taken off the list and its host noted (R33, R83); when the word decodes to a command, the step is that command's
meaning there (R122). The list of inputs and the note of the host are the model's (log entries 2 and 6). -/
def Obligations.StepRunsDecodedCommand : Prop :=
  ∀ (s : State) (h : Nat) (v : Word) (rest : List Input),
    s.inputs = .access ⟨h, .write, 0x000, 4, v⟩ :: rest → h < s.params.numHosts →
    step s = perform v { s with inputs := rest, issuer := h, cmd := v } ∧
    ∀ i : Instr, decode v = .ok i → step s = exec i { s with inputs := rest, issuer := h, cmd := v }

/-- A command word that meets several failure conditions reports the first of R352's order, and changes nothing but STATUS, as
a failing command does (R353). -/
def Obligations.FirstFailureIsReported : Prop :=
  ∀ (s : State) (v : Word) (c : ResultCode), firstFailure v s = some c →
    perform v s = .next { s with result := c, lastop := v.extractLsb' 0 8 }

/-- Every performed word leaves LASTOP = v[7:0], and RESULT is the failure's code, or OK where there is none (R351). -/
def Obligations.PerformedWordWritesStatus : Prop :=
  ∀ (s t : State) (v : Word), perform v s = .next t →
    t.lastop = v.extractLsb' 0 8 ∧ t.result = (firstFailure v s).getD .ok

/-- What each command may write: the column "writes" of R98, every other field unchanged. A failing command writes STATUS
only, and a sponge command no byte of OBUF at or above its output length. -/
def Obligations.CommandsWriteOnlyTheirState : Prop :=
  ∀ (s t : State) (i : Instr), exec i s = .next t →
    (∀ c : ResultCode, firstFailure (encode i) s = some c → t = { s with result := t.result, lastop := t.lastop }) ∧
    (∀ o : SpongeOperands, spongeOperands (encode i) s = some o →
      ∀ k : Nat, o.outLength ≤ k → Memory.read t.obuf k = Memory.read s.obuf k) ∧
    match i with
    | .expandkey => t = { s with result := t.result, lastop := t.lastop, ksched := t.ksched, keyused := t.keyused }
    | .encrypt | .decrypt =>
      t = { s with result := t.result, lastop := t.lastop, ksched := t.ksched, keyused := t.keyused, block := t.block }
    | .keccakf => t = { s with result := t.result, lastop := t.lastop, kstate := t.kstate }
    | .keccak | .shake128 | .shake256 | .sha3_224 | .sha3_256 | .sha3_384 | .sha3_512 =>
      t = { s with result := t.result, lastop := t.lastop, kstate := t.kstate, obuf := t.obuf }

/-- R91's idempotent commands: repeated at once, each leaves the state it left before. -/
def Obligations.RepeatedCommandIsIdempotent : Prop :=
  ∀ (s t : State) (i : Instr), i ≠ .encrypt → i ≠ .decrypt → i ≠ .keccakf → exec i s = .next t → exec i t = .next t

/-! AES primitives (40_aes_primitives.md). -/

/-- xtime doubles a byte as a polynomial and reduces by 0x11B, with R151's corner cases and example. -/
def Obligations.XtimeIsDoubling : Prop :=
  (∀ b : Byte, (xtime b).toNat = if b.toNat < 128 then 2 * b.toNat else (2 * b.toNat) ^^^ 0x11B) ∧
  xtime 0x00 = 0x00 ∧ xtime 0x80 = 0x1B ∧ xtime 0xFF = 0xE5 ∧ xtime 0x7F = 0xFE ∧ xtime 0x57 = 0xAE

/-- SBOX is the inverse in GF(2^8), 0 going to 0, followed by the affine map (R153), INV_SBOX and SBOX are inverse
permutations (R154), and the tables' entries that R153 and R154 check are right. -/
def Obligations.SubstitutionTablesAreFipsTables : Prop :=
  (∀ b : Byte, ∃ b' : Byte, (if b = 0 then b' = 0 else gfMul b b' = 1) ∧ sbox b = sboxAffine b') ∧
  (∀ b : Byte, invSbox (sbox b) = b ∧ sbox (invSbox b) = b) ∧
  sbox 0x00 = 0x63 ∧ sbox 0x01 = 0x7C ∧ sbox 0x53 = 0xED ∧ sbox 0xFF = 0x16 ∧
  invSbox 0x00 = 0x52 ∧ invSbox 0x63 = 0x00 ∧ invSbox 0xED = 0x53 ∧ invSbox 0xFF = 0x7D

/-- The fused passes are the FIPS-197 steps they fuse (R159, R160). -/
def Obligations.FusedPassesAreFipsSteps : Prop :=
  ∀ s k : Block, fwdPass s k = shiftRows (subBytes (addRoundKey s k)) ∧
    invPass s k = addRoundKey (invSubBytes (invShiftRows s)) k

/-- MixColumns is the product by the circulant (02 03 01 01), InvPre by (05 00 04 00) and InvMixColumns by (0e 0b 0d 09),
and InvMixColumns and MixColumns undo each other (R161, R162, R163). -/
def Obligations.ColumnMixesAreCirculantProducts : Prop :=
  ∀ s : Block, mixColumns s = circulant 0x02 0x03 0x01 0x01 s ∧ invPre s = circulant 0x05 0x00 0x04 0x00 s ∧
    invMixColumns s = circulant 0x0e 0x0b 0x0d 0x09 s ∧
    invMixColumns (mixColumns s) = s ∧ mixColumns (invMixColumns s) = s

/-! The AES key schedule and ciphers (41_aes_key_schedule.md, 42_aes_cipher.md). -/

/-- ResolveKey: a provisioned index selects itself, any other the default key under index 0; index 0 is always provisioned, and
two indices that resolve to one key give one schedule (R200). How the parameters hold KEYS is the model's (log entry 14). -/
def Obligations.UnknownKeyIndexFallsBack : Prop :=
  ∀ (p : Params) (k : Word), SelectedKey p k (resolveKey p k).1 (resolveKey p k).2 ∧
    resolveKey p 0 = (0, p.defaultKey) ∧ keys p 0 ≠ none ∧ keys p k = keyAt p k ∧
    ∀ j : Word, (resolveKey p j).2 = (resolveKey p k).2 → expandKey (resolveKey p j).2 = expandKey (resolveKey p k).2

/-- ExpandKey's bytes: the raw key, then word i from the word four back and the previous word, which at the first word of a
round key is rotated, substituted and given the round constant in its first byte (R201). RCON[1] is 1 and each later entry
the doubling of the one before (R156). -/
def Obligations.KeyScheduleFollowsRecurrence : Prop :=
  (rcon 1 = 0x01 ∧ ∀ i : Nat, 1 ≤ i → i ≤ 9 → rcon (i + 1) = xtime (rcon i)) ∧
  ∀ key : Block,
    (∀ j : Fin 16, scheduleByte (expandKey key) j.val = key[j]) ∧
    ∀ i j : Nat, 4 ≤ i → i ≤ 43 → j < 4 →
      scheduleByte (expandKey key) (4 * i + j) =
        scheduleByte (expandKey key) (4 * (i - 4) + j) ^^^
          (if i % 4 = 0 then
            sbox (scheduleByte (expandKey key) (4 * (i - 1) + (j + 1) % 4)) ^^^ (if j = 0 then rcon (i / 4) else 0x00)
          else scheduleByte (expandKey key) (4 * (i - 1) + j))

/-- RK(W, r) is bytes 16r to 16r+15 of a schedule, and round key 0 of a key's schedule is the key (R203). -/
def Obligations.RoundKeysLayOutTheSchedule : Prop :=
  (∀ (w : Schedule) (r : Fin 11) (i : Fin 16), (roundKey w r)[i] = scheduleByte w (16 * r.val + i.val)) ∧
  ∀ key : Block, roundKey (expandKey key) 0 = key

/-- Cipher and InvCipher compute FIPS-197 Cipher and InvCipher (R230, R231). -/
def Obligations.CiphersAreFipsCiphers : Prop :=
  ∀ (s : Block) (w : Schedule), cipher s w = fipsCipher s w ∧ invCipher s w = fipsInvCipher s w

/-- InvCipher undoes Cipher, and Cipher InvCipher, under any schedule (R234). -/
def Obligations.InvCipherUndoesCipher : Prop :=
  ∀ (s : Block) (w : Schedule), invCipher (cipher s w) w = s ∧ cipher (invCipher s w) w = s

/-- EXPANDKEY completes from every state (R204): the selected key's schedule in KSCHED, the index used in KEYUSED, STATUS,
and nothing else. -/
def Obligations.ExpandkeyExpandsSelectedKey : Prop :=
  ∀ s : State, ∃ (u : Word) (key : Block), SelectedKey s.params s.keyidx u key ∧
    exec .expandkey s =
      .next { s with ksched := expandKey key, keyused := u, result := .ok, lastop := 0x01 }

/-- ENCRYPT completes from every state (R232): EXPANDKEY's effects, and BLOCK becomes FIPS-197 Cipher of it under the selected
key, and nothing else. -/
def Obligations.EncryptEncryptsBlock : Prop :=
  ∀ s : State, ∃ (u : Word) (key : Block), SelectedKey s.params s.keyidx u key ∧
    exec .encrypt s =
      .next { s with block := fipsCipher s.block (expandKey key), ksched := expandKey key, keyused := u,
                     result := .ok, lastop := 0x02 }

/-- DECRYPT completes from every state (R233): EXPANDKEY's effects, and BLOCK becomes FIPS-197 InvCipher of it under the
selected key, and nothing else. -/
def Obligations.DecryptDecryptsBlock : Prop :=
  ∀ s : State, ∃ (u : Word) (key : Block), SelectedKey s.params s.keyidx u key ∧
    exec .decrypt s =
      .next { s with block := fipsInvCipher s.block (expandKey key), ksched := expandKey key, keyused := u,
                     result := .ok, lastop := 0x03 }

/-- ENCRYPT, then DECRYPT with KEYIDX, KEYS and BLOCK unchanged between them, restores BLOCK, whatever the index (R234). -/
def Obligations.DecryptRestoresEncryptedBlock : Prop :=
  ∀ s t t' : State, exec .encrypt s = .next t →
    t'.params = t.params → t'.keyidx = t.keyidx → t'.block = t.block →
    ∃ u : State, exec .decrypt t' = .next u ∧ u.block = s.block

/-! The permutation (43_keccak_permutation.md). -/

/-- Bytes and Lanes are inverse (R260), and bit z of lane (x, y) is bit z mod 8 of byte 8(x+5y) + z/8 (10_state.md R43). -/
def Obligations.LanesAndBytesAreInverse : Prop :=
  (∀ s : KeccakState, bytesOf (lanesOf s) = s) ∧ (∀ a : Lanes, lanesOf (bytesOf a) = a) ∧
  ∀ (s : KeccakState) (x y : Fin 5) (z : Nat), z < 64 →
    (lane (lanesOf s) x y).getLsbD z = (s[8 * (x.val + 5 * y.val) + z / 8]?.getD 0).getLsbD (z % 8)

/-- What Theta, Chi and Iota make of lane (x, y) (R261, R264, R267). -/
def Obligations.StepMappingsByLane : Prop :=
  ∀ (a : Lanes) (rc : Lane) (x y : Fin 5),
    lane (theta a) x y = lane a x y ^^^ (columnXor a (x - 1) ^^^ (columnXor a (x + 1)).rotateLeft 1) ∧
    lane (chi a) x y = lane a x y ^^^ (~~~lane a (x + 1) y &&& lane a (x + 2) y) ∧
    lane (iota a rc) x y = if x = 0 ∧ y = 0 then lane a x y ^^^ rc else lane a x y

/-- RhoPi's walk moves lane (x, y) to (y, 2x + 3y) and rotates it by RHO[x][y] (R262, R263). -/
def Obligations.RhoPiMovesAndRotatesLanes : Prop :=
  ∀ (a : Lanes) (x y : Fin 5), lane (rhoPi a) y (2 * x + 3 * y) = (lane a x y).rotateLeft (rho x y)

/-- The LFSR's 24 constants from the seed 0x01 are R268's table, one round is theta, rho and pi, chi and iota in this order, each
by its lane formula (R269), and KeccakF is 24 rounds with the table (R270). -/
def Obligations.KeccakFRunsRoundsOfTable : Prop :=
  constantsFrom 24 0x01 = roundConstants ∧
  (∀ (a : Lanes) (rc : Lane), keccakRound a rc = roundByLanes a rc) ∧
  ∀ s : KeccakState, keccakF s = keccakFByLanes s

/-- "KeccakF is a bijection on 200-byte states" (R270). -/
def Obligations.KeccakFIsBijective : Prop := Function.Bijective keccakF

/-- KECCAKF completes from every state (R271): KSTATE permuted in place by 24 rounds in R269's order, STATUS, and nothing
else. -/
def Obligations.KeccakfPermutesKstate : Prop :=
  ∀ s : State, exec .keccakf s =
    .next { s with kstate := keccakFByLanes s.kstate, result := .ok, lastop := 0x10 }

/-! The sponge (44_sponge.md). -/

/-- ParamsOK takes the exact sum: R300's corner cases, no 32-bit wrap, and on violation KECCAK reports ERR_PARAMS and writes no
output; the pair (0, 1600) passes ParamsOK and is then refused with ERR_RATE_ZERO. -/
def Obligations.KeccakChecksParametersExactly : Prop :=
  (∀ rt cp : Nat, paramsOk rt cp = true ↔ rt + cp = 1600 ∧ rt % 8 = 0) ∧
  paramsOk 1088 512 = true ∧ paramsOk 1000 600 = true ∧ paramsOk 1000 608 = false ∧ paramsOk 1004 596 = false ∧
  paramsOk 1600 0 = true ∧ paramsOk 0 1600 = true ∧
  ∀ s : State,
    (¬(s.rate.toNat + s.capacity.toNat = 1600 ∧ s.rate.toNat % 8 = 0) →
      exec .keccak s = .next { s with result := .errParams, lastop := 0x11 }) ∧
    (s.rate = 0 → s.capacity = 1600 → exec .keccak s = .next { s with result := .errRateZero, lastop := 0x11 })

/-- Absorb: a full chunk is joined and permuted, and the last, partial chunk joined without a permutation (R303). -/
def Obligations.AbsorbTakesRateChunks : Prop :=
  ∀ (rb : Nat) (s : KeccakState) (msg : List Byte), 1 ≤ rb →
    (rb ≤ msg.length → absorb rb s msg = absorb rb (keccakF (xorInto s (msg.take rb))) (msg.drop rb)) ∧
    (msg.length < rb → absorb rb s msg = xorInto s msg) ∧
    ∀ k : Fin 200, (xorInto s msg)[k] = s[k] ^^^ msg.getD k.val 0

/-- Pad: the suffix byte at the offset, the extra permutation only at the window's last byte with suffix bit 7 set, then 0x80
in the last byte of the window (R304). -/
def Obligations.PadJoinsSuffixAndTopBit : Prop :=
  ∀ (rb off : Nat) (sf : Byte) (s : KeccakState),
    let suffixed : KeccakState := Vector.ofFn fun k : Fin 200 => s[k] ^^^ (if k.val = off then sf else 0)
    let last (t : KeccakState) : KeccakState := Vector.ofFn fun k : Fin 200 => t[k] ^^^ (if k.val = rb - 1 then 0x80 else 0)
    (sf.getLsbD 7 = true ∧ off = rb - 1 → pad rb sf off s = last (keccakF suffixed)) ∧
    (¬(sf.getLsbD 7 = true ∧ off = rb - 1) → pad rb sf off s = last suffixed)

/-- Squeeze: copies of at most a window, a permutation between two copies and none after the last, and as many bytes as asked
for (R306). -/
def Obligations.SqueezeCopiesRateChunks : Prop :=
  ∀ (rb : Nat) (s : KeccakState) (len : Nat), 1 ≤ rb → rb ≤ 200 →
    (len ≤ rb → squeeze rb s len = (s.toList.take len, s)) ∧
    (rb < len →
      squeeze rb s len =
        (s.toList.take rb ++ (squeeze rb (keccakF s) (len - rb)).1, (squeeze rb (keccakF s) (len - rb)).2)) ∧
    (squeeze rb s len).1.length = len

/-- A shorter output is a prefix of a longer one, as the copies of R306 make it. -/
def Obligations.ShorterOutputIsPrefix : Prop :=
  ∀ (rt : Nat) (sf : Byte) (msg : List Byte) (m n : Nat), 8 ≤ rt → rt ≤ 1600 → m ≤ n →
    (sponge rt sf msg m).1 = (sponge rt sf msg n).1.take m

/-- KECCAK completes (R309, R310): legal parameters, lengths within the buffers and a written message give OBUF, KSTATE and
STATUS, and nothing else. Output and final state are the composition of the phases R302 to R306 (R307). -/
def Obligations.KeccakHashesMessage : Prop :=
  ∀ s : State, s.rate.toNat + s.capacity.toNat = 1600 → s.rate.toNat % 8 = 0 → s.rate ≠ 0 →
    s.inlen.toNat ≤ s.params.ibufBytes → s.outlen.toNat ≤ s.params.obufBytes →
    (∀ k, k < s.inlen.toNat → Memory.read s.ibuf k ≠ none) →
    ∃ (msg : List Byte) (t : State), IsMessage s s.inlen.toNat msg ∧ exec .keccak s = .next t ∧
      SpongeResult s t 0x11 s.rate.toNat s.suffix msg s.outlen.toNat

/-- SHAKE128 and SHAKE256 complete with their fixed parameters and the caller's output length (R309, R311, R312). -/
def Obligations.ShakeCommandsHashMessage : Prop :=
  ∀ s : State, s.inlen.toNat ≤ s.params.ibufBytes → s.outlen.toNat ≤ s.params.obufBytes →
    (∀ k, k < s.inlen.toNat → Memory.read s.ibuf k ≠ none) →
    ∃ (msg : List Byte) (t u : State), IsMessage s s.inlen.toNat msg ∧
      exec .shake128 s = .next t ∧ SpongeResult s t 0x20 1344 0x1F msg s.outlen.toNat ∧
      exec .shake256 s = .next u ∧ SpongeResult s u 0x21 1088 0x1F msg s.outlen.toNat

/-- SHA3_224, SHA3_256, SHA3_384 and SHA3_512 complete with their fixed parameters and digest lengths, whatever OUTLEN holds
(R309, R313 to R317). -/
def Obligations.Sha3CommandsHashMessage : Prop :=
  ∀ s : State, s.params.WellFormed → s.inlen.toNat ≤ s.params.ibufBytes →
    (∀ k, k < s.inlen.toNat → Memory.read s.ibuf k ≠ none) →
    ∃ (msg : List Byte) (t u v w : State), IsMessage s s.inlen.toNat msg ∧
      exec .sha3_224 s = .next t ∧ SpongeResult s t 0x22 1152 0x06 msg 28 ∧
      exec .sha3_256 s = .next u ∧ SpongeResult s u 0x23 1088 0x06 msg 32 ∧
      exec .sha3_384 s = .next v ∧ SpongeResult s v 0x24 832 0x06 msg 48 ∧
      exec .sha3_512 s = .next w ∧ SpongeResult s w 0x25 576 0x06 msg 64

/-- A sponge command that passes its checks and meets an unwritten message byte stops with Unwritten at the first one
(R309, 20_memory.md R99). The host in the fault is the model's note of the host whose access is being performed (log
entry 6). -/
def Obligations.UnwrittenMessageByteFaults : Prop :=
  ∀ (s : State) (i : Instr) (o : SpongeOperands) (k : Nat),
    spongeOperands (encode i) s = some o → firstFailure (encode i) s = none →
    k < o.length → Memory.read s.ibuf k = none → (∀ j, j < k → Memory.read s.ibuf j ≠ none) →
    exec i s = .fault (.unwritten s.issuer 0x000 k)

/-- Each wrapper is the generic KECCAK with its fixed parameters, whatever RATE, CAPACITY and SUFFIX hold (and OUTLEN, for the
SHA3 four), those registers kept and LASTOP its own; KECCAK writes none of the three (R317). -/
def Obligations.WrappersAreKeccakWithFixedParameters : Prop :=
  ∀ s : State,
    let shake (rt cp : Word) (op : Byte) :=
      mapNext (fun t => { t with rate := s.rate, capacity := s.capacity, suffix := s.suffix, lastop := op })
        (exec .keccak { s with rate := rt, capacity := cp, suffix := 0x1F })
    let sha3 (rt cp len : Word) (op : Byte) :=
      mapNext (fun t => { t with rate := s.rate, capacity := s.capacity, suffix := s.suffix, outlen := s.outlen, lastop := op })
        (exec .keccak { s with rate := rt, capacity := cp, suffix := 0x06, outlen := len })
    exec .shake128 s = shake 1344 256 0x20 ∧ exec .shake256 s = shake 1088 512 0x21 ∧
    exec .sha3_224 s = sha3 1152 448 28 0x22 ∧ exec .sha3_256 s = sha3 1088 512 32 0x23 ∧
    exec .sha3_384 s = sha3 832 768 48 0x24 ∧ exec .sha3_512 s = sha3 576 1024 64 0x25 ∧
    ∀ t : State, exec .keccak s = .next t → t.rate = s.rate ∧ t.capacity = s.capacity ∧ t.suffix = s.suffix

/-- A SHA3 digest and the final state depend on the message alone: no earlier KSTATE, OBUF or register is seen (R302, R98). -/
def Obligations.DigestDependsOnMessageOnly : Prop :=
  ∀ (s₁ s₂ t₁ t₂ : State) (i : Instr) (d : Nat),
    (i, d) ∈ [(Instr.sha3_224, 28), (Instr.sha3_256, 32), (Instr.sha3_384, 48), (Instr.sha3_512, 64)] →
    s₁.inlen = s₂.inlen → (∀ k, k < s₁.inlen.toNat → Memory.read s₁.ibuf k = Memory.read s₂.ibuf k) →
    exec i s₁ = .next t₁ → exec i s₂ = .next t₂ → t₁.result = .ok → t₂.result = .ok →
    t₁.kstate = t₂.kstate ∧ ∀ k, k < d → Memory.read t₁.obuf k = Memory.read t₂.obuf k

/-- A passing sponge command with L = 0 leaves OK, which differs from every failure code, writes no byte of OBUF, and leaves
in KSTATE the state after the final permutation (R318). -/
def Obligations.ZeroLengthSuccessIsDistinct : Prop :=
  (∀ c : ResultCode, resultByte c = resultByte .ok → c = .ok) ∧
  ∀ (s : State) (i : Instr) (o : SpongeOperands) (msg : List Byte),
    spongeOperands (encode i) s = some o → firstFailure (encode i) s = none → o.outLength = 0 →
    IsMessage s o.length msg →
    ∃ t : State, exec i s = .next t ∧ t.result = .ok ∧ t.obuf = s.obuf ∧
      t.kstate = squeezeStart o.rate o.suffix msg

/-! Host accesses (10_state.md R32, 20_memory.md). -/

/-- No offset lies in two locations of the map (R32), for every legal choice of the buffer sizes. -/
def Obligations.LocationsDoNotOverlap : Prop :=
  ∀ (p : Params) (k : Nat) (e₁ e₂ : MapEntry), p.WellFormed → e₁ ∈ hostMap p → e₂ ∈ hostMap p →
    covers k e₁ = true → covers k e₂ = true → e₁ = e₂

/-- A bus error ends the access, changes no state of the core, returns no value and is recorded; no later step but reset clears
the list, and reset empties it (R85). The order of the list and the note of the host are the model's (log entries 6 and 11). -/
def Obligations.BusErrorChangesNoCoreState : Prop :=
  (∀ (s : State) (a : Access) (r : BusReason), a.host < s.params.numHosts →
    checkAccess s.params a.kind a.off a.n = .error r →
    step (s.offer (.access a)) =
      .next { s with issuer := a.host, busErrors := s.busErrors ++ [⟨a.host, a.kind, a.off, a.n, r⟩] }) ∧
  (∀ s t : State, s.inputs.head? ≠ some .reset → step s = .next t → s.busErrors <+: t.busErrors) ∧
  ∀ s t : State, step (s.offer .reset) = .next t → t.busErrors = []

/-- The bus error a refused access gets: a wrong width first, then a misaligned 4-byte access, which is never split, then an
offset where nothing is mapped or an access that runs past the end of its location, then a 1-byte access to a register, then
a Write of a read-only register or of KSCHED (R32, R81, R89). The note of the host and the place of the new entry at the end
of the list are the model's (log entries 6 and 11). -/
def Obligations.RefusedAccessIsBusError : Prop :=
  ∀ (s : State) (a : Access), a.host < s.params.numHosts →
    let error (r : BusReason) : State :=
      { s with issuer := a.host, busErrors := s.busErrors ++ [⟨a.host, a.kind, a.off, a.n, r⟩] }
    (a.n ≠ 1 → a.n ≠ 4 → step (s.offer (.access a)) = .next (error .width)) ∧
    (a.n = 4 → a.off.toNat % 4 ≠ 0 → step (s.offer (.access a)) = .next (error .misaligned)) ∧
    (a.n = 1 → checkAccess s.params a.kind a.off a.n ≠ .error .misaligned) ∧
    (a.n = 1 ∨ (a.n = 4 ∧ a.off.toNat % 4 = 0) → (∀ e ∈ hostMap s.params, covers a.off.toNat e = false) →
      step (s.offer (.access a)) = .next (error .unmapped)) ∧
    (a.n = 4 → a.off.toNat % 4 = 0 → s.params.WellFormed →
      (∃ e ∈ hostMap s.params, covers a.off.toNat e = true ∧ covers (a.off.toNat + 3) e = false) →
      step (s.offer (.access a)) = .next (error .unmapped)) ∧
    (a.n = 1 → a.off.toNat < 0x02C → step (s.offer (.access a)) = .next (error .width)) ∧
    (a.n = 4 → a.kind = .write → a.off ∈ ([0x004, 0x00C, 0x024, 0x028] : List Word) →
      step (s.offer (.access a)) = .next (error .readonly)) ∧
    (a.n = 1 ∨ (a.n = 4 ∧ a.off.toNat % 4 = 0) → a.kind = .write → 0x200 ≤ a.off.toNat → a.off.toNat < 0x2B0 →
      step (s.offer (.access a)) = .next (error .readonly))

/-- A Read changes nothing but the value its host is given, or the bus error recorded for it (R82, R91). The list of replies,
the note of the host and the order of the list of bus errors are the model's (log entries 5, 6 and 11). -/
def Obligations.ReadsHaveNoSideEffect : Prop :=
  ∀ (s t : State) (a : Access), a.kind = .read → step (s.offer (.access a)) = .next t →
    t = { s with issuer := a.host, returned := t.returned, busErrors := t.busErrors }

/-- A 4-byte Read of a register returns its value, in every state (R33 to R40, R82): STATUS has RESULT, by the codes of R350,
in bits 7:0, LASTOP in bits 15:8 and 0 in 31:16, and SUFFIX its byte in bits 7:0 and 0 above. KEYIDX, RATE, CAPACITY, INLEN
and OUTLEN read back any value written, and SUFFIX its low byte (R35, R37, R38, R39). The list of replies and the note of the
host are the model's (log entries 5 and 6). -/
def Obligations.RegistersReadBack : Prop :=
  (∀ (s : State) (h : Nat), h < s.params.numHosts →
    let returns (off v : Word) : Prop :=
      step (s.offer (.access (read32 h off))) = .next { s with issuer := h, returned := s.returned ++ [⟨h, off, 4, v⟩] }
    (∃ status : Word, returns 0x004 status ∧ status.extractLsb' 0 8 = resultByte s.result ∧
      status.extractLsb' 8 8 = s.lastop ∧ status.extractLsb' 16 16 = 0) ∧
    (∃ suffix : Word, returns 0x018 suffix ∧ suffix.extractLsb' 0 8 = s.suffix ∧ suffix.extractLsb' 8 24 = 0) ∧
    returns 0x000 s.cmd ∧ returns 0x008 s.keyidx ∧ returns 0x00C s.keyused ∧ returns 0x010 s.rate ∧
    returns 0x014 s.capacity ∧ returns 0x01C s.inlen ∧ returns 0x020 s.outlen ∧
    returns 0x024 (BitVec.ofNat 32 s.params.ibufBytes) ∧ returns 0x028 (BitVec.ofNat 32 s.params.obufBytes)) ∧
  (resultByte .ok = 0x00 ∧ resultByte .errParams = 0x01 ∧ resultByte .errRateZero = 0x02 ∧ resultByte .errInlen = 0x03 ∧
    resultByte .errOutlen = 0x04 ∧ resultByte .errOpcode = 0x05 ∧ resultByte .errReserved = 0x06 ∧ resultByte .none = 0xFF) ∧
  ∀ (s : State) (h g : Nat) (off v : Word), h < s.params.numHosts → g < s.params.numHosts →
    off ∈ [0x008, 0x010, 0x014, 0x018, 0x01C, 0x020] →
    ∃ t u : State, step (s.offer (.access (write32 h off v))) = .next t ∧
      step (t.offer (.access (read32 g off))) = .next u ∧
      u.returned = s.returned ++ [⟨g, off, 4, if off = 0x018 then v &&& 0xFF else v⟩]

/-- A Write that passes the checks and reaches a buffer completes and stores its bytes, least significant first; every other
byte of every buffer reads as before and every register and the other state is unchanged (R83). The note of the host is the
model's (log entry 6). -/
def Obligations.BufferWriteChangesOnlyItsBytes : Prop :=
  ∀ (s : State) (a : Access) (e : MapEntry), a.host < s.params.numHosts → a.kind = .write →
    checkAccess s.params .write a.off a.n = .ok e → e.isRegister = false →
    ∃ t : State, step (s.offer (.access a)) = .next t ∧
      t = { s with issuer := a.host, block := t.block, kstate := t.kstate, ibuf := t.ibuf, obuf := t.obuf } ∧
      (∀ k : Nat, k < a.n →
        readBufferByte t e.loc (a.off.toNat - e.base + k) = some (a.value.extractLsb' (8 * k) 8)) ∧
      ∀ (loc : Location) (j : Nat),
        ¬(loc = e.loc ∧ a.off.toNat - e.base ≤ j ∧ j < a.off.toNat - e.base + a.n) →
        readBufferByte t loc j = readBufferByte s loc j

/-- A 4-byte access to a buffer is little-endian: after WR32, byte off + k reads as bits 8k+7 to 8k, and RD32 reads the word
(R86). What a Read returns is seen at the end of the list of replies, which is the model's (log entry 5). -/
def Obligations.WordWriteIsLittleEndian : Prop :=
  ∀ (s : State) (h : Nat) (off v : Word) (e : MapEntry), h < s.params.numHosts →
    checkAccess s.params .write off 4 = .ok e → e.isRegister = false →
    ∃ t u : State, step (s.offer (.access (write32 h off v))) = .next t ∧
      (∀ k : Nat, k < 4 → ∃ b : State, step (t.offer (.access (read8 h (off + BitVec.ofNat 32 k)))) = .next b ∧
        b.returned = s.returned ++ [⟨h, off + BitVec.ofNat 32 k, 1, (v >>> (8 * k)) &&& 0xFF⟩]) ∧
      step (t.offer (.access (read32 h off))) = .next u ∧ u.returned = s.returned ++ [⟨h, off, 4, v⟩]

/-- A Read inside a buffer, KSCHED among them, returns its bytes, least significant first, when all it covers are written (R82,
R84, R86); only those bytes need be. So RD32 of BLOCK at 0x100 + 4c is column c with row 0 lowest (R87), and the two words of
KSTATE at 0x400 + 8(x+5y) are the halves of lane (x, y), low half first (R88). The list of replies and the note of the host
are the model's (log entries 5 and 6). -/
def Obligations.ReadsReturnBufferBytes : Prop :=
  ∀ (s : State) (h : Nat), h < s.params.numHosts →
    let answer (off : Word) (n : Nat) (v : Word) : State := { s with issuer := h, returned := s.returned ++ [⟨h, off, n, v⟩] }
    (s.params.WellFormed → ∀ b ∈ buffers s, ∀ (k n : Nat) (unused : Word) (bytes : List Byte),
      n = 1 ∨ (n = 4 ∧ k % 4 = 0) → k + n ≤ b.size →
      bytes.length = n → (∀ j, j < n → b.byte (k + j) = bytes[j]?) →
      ∃ v : Word, step (s.offer (.access ⟨h, .read, BitVec.ofNat 32 (b.base + k), n, unused⟩)) =
          .next (answer (BitVec.ofNat 32 (b.base + k)) n v) ∧
        v.toNat < 256 ^ n ∧ ∀ j, j < n → bytes[j]? = some (v.extractLsb' (8 * j) 8)) ∧
    (∀ c : Fin 4, step (s.offer (.access (read32 h (BitVec.ofNat 32 (0x100 + 4 * c.val))))) =
      .next (answer (BitVec.ofNat 32 (0x100 + 4 * c.val)) 4
        (cell s.block 3 c ++ cell s.block 2 c ++ cell s.block 1 c ++ cell s.block 0 c))) ∧
    ∀ x y : Fin 5,
      step (s.offer (.access (read32 h (BitVec.ofNat 32 (0x400 + 8 * (x.val + 5 * y.val)))))) =
        .next (answer (BitVec.ofNat 32 (0x400 + 8 * (x.val + 5 * y.val))) 4
          ((lane (lanesOf s.kstate) x y).extractLsb' 0 32)) ∧
      step (s.offer (.access (read32 h (BitVec.ofNat 32 (0x404 + 8 * (x.val + 5 * y.val)))))) =
        .next (answer (BitVec.ofNat 32 (0x404 + 8 * (x.val + 5 * y.val))) 4
          ((lane (lanesOf s.kstate) x y).extractLsb' 32 32))

/-- A Read that passes the checks and covers an unwritten byte of IBUF or OBUF stops with Unwritten (R82, R99). -/
def Obligations.ReadOfUnwrittenByteFaults : Prop :=
  ∀ (s : State) (h n k : Nat) (off v : Word) (e : MapEntry), h < s.params.numHosts →
    checkAccess s.params .read off n = .ok e → e.loc = .ibuf ∨ e.loc = .obuf → k < n →
    Memory.read (if e.loc = .ibuf then s.ibuf else s.obuf) (off.toNat - e.base + k) = none →
    step (s.offer (.access ⟨h, .read, off, n, v⟩)) = .fault (.unwritten h off n)

/-- A step stops only with Unwritten, or with the refusal of an access of a host context that does not exist (R99, R357; the
refusal is the model's, log entry 9). Unwritten comes from a Read that passes the checks and covers an unwritten byte of IBUF
or OBUF, or from a write to CMD of one of the seven sponge words to which no failure applies, at the first unwritten byte of
the message, IBUF[0 .. INLEN-1] (44_sponge.md R309). -/
def Obligations.StepStopsOnlyWhereDeclared : Prop :=
  ∀ s : State,
    (∀ r : Refusal, step s = .refused r →
      ∃ (a : Access) (rest : List Input), s.inputs = .access a :: rest ∧ s.params.numHosts ≤ a.host ∧
        r = .noSuchHost a.host) ∧
    ∀ f : Fault, step s = .fault f →
      ∃ (a : Access) (rest : List Input), s.inputs = .access a :: rest ∧ a.host < s.params.numHosts ∧
        ((a.kind = .read ∧ f = .unwritten a.host a.off a.n ∧
            ∃ (e : MapEntry) (k : Nat), checkAccess s.params .read a.off a.n = .ok e ∧ k < a.n ∧
              ((e.loc = .ibuf ∧ Memory.read s.ibuf (a.off.toNat - 0x10000 + k) = none) ∨
               (e.loc = .obuf ∧ Memory.read s.obuf (a.off.toNat - 0x20000 + k) = none))) ∨
         (a.kind = .write ∧ a.off = 0x000 ∧ a.n = 4 ∧ a.value ∈ [0x11, 0x20, 0x21, 0x22, 0x23, 0x24, 0x25] ∧
            firstFailure a.value s = none ∧
            ∃ k : Nat, k < s.inlen.toNat ∧ Memory.read s.ibuf k = none ∧ (∀ j, j < k → Memory.read s.ibuf j ≠ none) ∧
              f = .unwritten a.host 0x000 k))

/-- The state after reset, as the host reads it: the register values and buffers of R47, every byte of IBUF and OBUF
unwritten, no bus error recorded. -/
def Obligations.ResetStateReadsAsListed : Prop :=
  ∀ p : Params,
    let s := State.resetWith p
    readRegister s .cmd = some 0 ∧ readRegister s .status = some 0x000000FF ∧ readRegister s .keyidx = some 0 ∧
    readRegister s .keyused = some 0 ∧ readRegister s .rate = some 0 ∧ readRegister s .capacity = some 0 ∧
    readRegister s .suffix = some 0 ∧ readRegister s .inlen = some 0 ∧ readRegister s .outlen = some 0 ∧
    readRegister s .ibufsize = some (BitVec.ofNat 32 p.ibufBytes) ∧
    readRegister s .obufsize = some (BitVec.ofNat 32 p.obufBytes) ∧
    (∀ k, k < 16 → readBufferByte s .block k = some 0) ∧ (∀ k, k < 176 → readBufferByte s .ksched k = some 0) ∧
    (∀ k, k < 200 → readBufferByte s .kstate k = some 0) ∧
    (∀ k, readBufferByte s .ibuf k = none ∧ readBufferByte s .obuf k = none) ∧ s.busErrors = []

/-- The platform's reset, at any time, gives every piece of core state its reset value and leaves the parameters (R380). What
it leaves of the model's own fields is the model's choice (log entry 4). -/
def Obligations.ResetInputResetsCore : Prop :=
  ∀ s : State, step (s.offer .reset) =
    .next { State.resetWith s.params with inputs := s.inputs, issuer := s.issuer, returned := s.returned }

/-- With no access pending the core is idle and keeps all its state (R362). -/
def Obligations.IdleCoreKeepsState : Prop := ∀ s : State, s.inputs = [] → step s = .next s

/-! Invariants and rules of the whole machine. -/

/-- The state after reset meets the invariant, for every legal choice of the parameters and for the one of State.reset. -/
def Obligations.ResetMeetsInvariant : Prop :=
  (∀ p : Params, p.WellFormed → (State.resetWith p).Inv) ∧ State.reset.Inv

/-- No step changes the parameters (R12, R380). -/
def Obligations.StepKeepsParameters : Prop := ∀ s t : State, step s = .next t → t.params = s.params

/-- Every step keeps IBUF and OBUF in canonical form and within their sizes (R44, R45, R83, R309). -/
def Obligations.StepKeepsBuffersWellFormed : Prop :=
  ∀ s t : State, s.BuffersWellFormed → step s = .next t → t.BuffersWellFormed

/-- Every step keeps STATUS in agreement with CMD: LASTOP is CMD[7:0], and RESULT is a code the word in CMD can end with, by
the column "raised by" (R34, R350, R351). -/
def Obligations.StepKeepsStatusAgreement : Prop :=
  ∀ s t : State, s.params.WellFormed → s.StatusAgrees → step s = .next t → t.StatusAgrees

/-- Every step keeps in KEYUSED an index whose key is provisioned (R36, R200). -/
def Obligations.StepKeepsKeyusedProvisioned : Prop :=
  ∀ s t : State, s.KeyusedProvisioned → step s = .next t → t.KeyusedProvisioned

/-- Only reset makes a written byte of IBUF or OBUF unwritten again (R99). -/
def Obligations.OnlyResetUnwritesBytes : Prop :=
  ∀ (s t : State) (a : Access) (k : Nat), step (s.offer (.access a)) = .next t →
    (Memory.read s.ibuf k ≠ none → Memory.read t.ibuf k ≠ none) ∧
    (Memory.read s.obuf k ≠ none → Memory.read t.obuf k ≠ none)

/-- What a host access can change, by cause: CMD and STATUS only a CMD write; KSCHED and KEYUSED only the three AES commands;
an operand register only its own write; BLOCK, KSTATE, IBUF and OBUF only a write inside them or, but for IBUF, the commands
that R98 names (R34 to R39, R41 to R45, R98). -/
def Obligations.ChangesHaveTheirCauses : Prop :=
  ∀ (s t : State) (a : Access), step (s.offer (.access a)) = .next t →
    let command (words : List Word) : Prop := a.kind = .write ∧ a.off = 0x000 ∧ a.value ∈ words
    let writeAt (off : Word) : Prop := a.kind = .write ∧ a.off = off
    let writeIn (base size : Nat) : Prop := a.kind = .write ∧ base ≤ a.off.toNat ∧ a.off.toNat < base + size
    (t.cmd ≠ s.cmd ∨ t.result ≠ s.result ∨ t.lastop ≠ s.lastop → writeAt 0x000) ∧
    (t.ksched ≠ s.ksched ∨ t.keyused ≠ s.keyused → command [1, 2, 3]) ∧
    (t.keyidx ≠ s.keyidx → writeAt 0x008) ∧ (t.rate ≠ s.rate → writeAt 0x010) ∧
    (t.capacity ≠ s.capacity → writeAt 0x014) ∧ (t.suffix ≠ s.suffix → writeAt 0x018) ∧
    (t.inlen ≠ s.inlen → writeAt 0x01C) ∧ (t.outlen ≠ s.outlen → writeAt 0x020) ∧
    (t.block ≠ s.block → command [2, 3] ∨ writeIn 0x100 16) ∧
    (t.kstate ≠ s.kstate → command [0x10, 0x11, 0x20, 0x21, 0x22, 0x23, 0x24, 0x25] ∨ writeIn 0x400 200) ∧
    (t.ibuf ≠ s.ibuf → writeIn 0x10000 s.params.ibufBytes) ∧
    (t.obuf ≠ s.obuf → command [0x11, 0x20, 0x21, 0x22, 0x23, 0x24, 0x25] ∨ writeIn 0x20000 s.params.obufBytes)

/-- LOADBLK, in its four accesses, puts its sixteen bytes into BLOCK in buffer order and changes nothing else (R128). The list of
inputs and the note of the host are the model's (log entries 2 and 6). -/
def Obligations.LoadblkLoadsBlockInOrder : Prop :=
  ∀ (s : State) (h : Nat) (b : Block), h < s.params.numHosts → s.inputs = assemble h [.loadblk b] →
    Host.Core.run Sys2Proof.core 4 s = .next { s with inputs := [], issuer := h, block := b }
end

