-- ==== Sys2Proof/Laws/Aes.lean ====
section
/-! SUPPORT. The AES block as a matrix of cells, the passes byte by byte, and the linearity of the field doubling. -/

namespace Sys2Proof.Machine

/-! Cells. -/

@[simp] theorem cell_ofCells (f : Fin 4 → Fin 4 → Byte) (r c : Fin 4) : cell (ofCells f) r c = f r c := by
  simp only [cell, ofCells, Vector.getElem_ofFn]
  congr 1
  · apply Fin.ext
    simp
  · apply Fin.ext
    simp
    omega

/-- Two blocks with the same cells are the same block. -/
theorem block_ext_cells {s t : Block} (h : ∀ r c, cell s r c = cell t r c) : s = t := by
  apply Vector.ext
  intro i hi
  have hc := h ⟨i % 4, by omega⟩ ⟨i / 4, by omega⟩
  simp only [cell] at hc
  have hi' : 4 * (i / 4) + i % 4 = i := by omega
  simpa only [hi'] using hc

/-- A byte of a block is a cell (10_state.md R41). -/
theorem getElem_eq_cell (s : Block) (i : Fin 16) : s[i] = cell s ⟨i.val % 4, by omega⟩ ⟨i.val / 4, by omega⟩ := by
  simp only [cell, Fin.getElem_fin]
  congr 1
  omega

/-- A cell is a byte of a block (10_state.md R41). -/
theorem cell_eq_getElem (s : Block) (r c : Fin 4) : cell s r c = s[(⟨4 * c.val + r.val, by omega⟩ : Fin 16)] := rfl

/-! The passes. -/

@[simp] theorem cell_addRoundKey (s k : Block) (r c : Fin 4) : cell (addRoundKey s k) r c = cell s r c ^^^ cell k r c := by
  simp [cell, addRoundKey]

/-- ShiftRows takes the cell of row r, column c from column c + r (R157). -/
theorem sh_position (r c : Fin 4) : sh ⟨4 * c.val + r.val, by omega⟩ = ⟨4 * (c + r).val + r.val, by omega⟩ := by
  revert r c
  decide

/-- InvShiftRows takes the cell of row r, column c from column c - r (R158). -/
theorem ish_position (r c : Fin 4) : ish ⟨4 * c.val + r.val, by omega⟩ = ⟨4 * (c - r).val + r.val, by omega⟩ := by
  revert r c
  decide

theorem cell_fwdPass (s k : Block) (r c : Fin 4) :
    cell (fwdPass s k) r c = sbox (cell s r (c + r) ^^^ cell k r (c + r)) := by
  simp only [cell_eq_getElem, fwdPass, Fin.getElem_fin, Vector.getElem_ofFn, sh_position]

theorem cell_invPass (s k : Block) (r c : Fin 4) :
    cell (invPass s k) r c = invSbox (cell s r (c - r)) ^^^ cell k r c := by
  simp only [cell_eq_getElem, invPass, Fin.getElem_fin, Vector.getElem_ofFn, ish_position]

theorem cell_mixColumns (s : Block) (j c : Fin 4) :
    cell (mixColumns s) j c =
      cell s j c ^^^ xtime (cell s j c ^^^ cell s (j + 1) c) ^^^
        (cell s 0 c ^^^ cell s 1 c ^^^ cell s 2 c ^^^ cell s 3 c) := by
  rw [mixColumns, cell_ofCells]

theorem cell_invPre (s : Block) (j c : Fin 4) :
    cell (invPre s) j c =
      cell s j c ^^^ (if j.val % 2 = 0 then x4 (cell s 0 c ^^^ cell s 2 c) else x4 (cell s 1 c ^^^ cell s 3 c)) := by
  rw [invPre, cell_ofCells]

/-! Field doubling is linear. -/

theorem byte_xor_left_comm (a b c : Byte) : a ^^^ (b ^^^ c) = b ^^^ (a ^^^ c) := by
  rw [← BitVec.xor_assoc, BitVec.xor_comm a b, BitVec.xor_assoc]

@[simp] theorem xtime_zero : xtime 0 = 0 := by decide

theorem xtime_xor (a b : Byte) : xtime (a ^^^ b) = xtime a ^^^ xtime b := by
  simp only [xtime, BitVec.getLsbD_xor, BitVec.shiftLeft_xor_distrib]
  cases a.getLsbD 7 <;> cases b.getLsbD 7 <;> simp [BitVec.xor_assoc, BitVec.xor_comm, byte_xor_left_comm]

theorem x4_xor (a b : Byte) : x4 (a ^^^ b) = x4 a ^^^ x4 b := by simp only [x4, xtime_xor]

end Sys2Proof.Machine
end

