-- ==== Sys2Proof/Laws/Bytes.lean ====
section
/-! SUPPORT. Byte order, fixed-size buffers, and what an access finds at a location. -/

namespace Sys2Proof.Machine

/-! Byte order. -/

@[simp] theorem leBytes_length {w : Nat} (v : BitVec w) (n : Nat) : (leBytes v n).length = n := by simp [leBytes]

theorem leBytes_getElem? {w : Nat} (v : BitVec w) (n k : Nat) :
    (leBytes v n)[k]? = if k < n then some (byteAt v k) else none := by
  by_cases h : k < n
  · simp [leBytes, h]
  · simp [leBytes, h]

/-- Bit `i` of byte `k` is bit `8k + i` of the value. -/
theorem byteAt_getLsbD {w : Nat} (v : BitVec w) (k i : Nat) : (byteAt v k).getLsbD i = (decide (i < 8) && v.getLsbD (8 * k + i)) := by
  simp [byteAt, BitVec.getLsbD_extractLsb']

/-- Bit `i` of a value put together from bytes is bit `i mod 8` of byte `i / 8`, 0 past the last byte (20_memory.md R86). -/
theorem leValue_getLsbD {w : Nat} (bs : List Byte) (i : Nat) (hi : i < w) :
    (leValue w bs).getLsbD i = (bs[i / 8]?.getD 0).getLsbD (i % 8) := by
  induction bs generalizing i with
  | nil => simp [leValue]
  | cons b bs ih =>
    have hc : leValue w (b :: bs) = leValue w bs <<< 8 ||| b.setWidth w := rfl
    rw [hc]
    by_cases h8 : i < 8
    · have h0 : i / 8 = 0 := by omega
      have hm : i % 8 = i := by omega
      simp [h8, h0, hm, hi]
    · have hs : i / 8 = (i - 8) / 8 + 1 := by omega
      have hm : i % 8 = (i - 8) % 8 := by omega
      have hb : b.getLsbD i = false := BitVec.getLsbD_of_ge b i (by omega)
      rw [BitVec.getLsbD_or, BitVec.getLsbD_shiftLeft, ih (i - 8) (by omega)]
      simp [h8, hi, hb, hs, hm]

/-! Fixed-size buffers. -/

/-- A byte of a fixed-size buffer after a row of bytes is written into it. -/
theorem writeVector_getElem? {n : Nat} (v : Vector Byte n) (k j : Nat) (bs : List Byte) :
    (writeVector v k bs)[j]? = if k ≤ j ∧ j < k + bs.length ∧ j < n then bs[j - k]? else v[j]? := by
  induction bs generalizing v k with
  | nil => simp [writeVector]; omega
  | cons b bs ih =>
    rw [writeVector, ih]
    by_cases hj : j < n
    · by_cases he : j = k
      · subst he
        simp [hj]
      · by_cases hl : k + 1 ≤ j ∧ j < k + 1 + bs.length
        · have hs : j - k = j - (k + 1) + 1 := by omega
          rw [if_pos ⟨hl.1, hl.2, hj⟩, if_pos (by simp; omega), hs, List.getElem?_cons_succ]
        · rw [if_neg (by omega), if_neg (by simp; omega), Vector.getElem?_setIfInBounds, if_neg (by omega)]
    · rw [if_neg (by omega), if_neg (by omega), Vector.getElem?_eq_none (by omega), Vector.getElem?_eq_none (by omega)]

/-! What an access finds at a location. -/

/-- The bytes a Read collects from a buffer: all of them, in order, or none at all where one is missing (20_memory.md R82). -/
theorem readBufferBytes_cases (s : State) (loc : Location) (n k : Nat) :
    (∃ bs, readBufferBytes s loc n k = some bs ∧ bs.length = n ∧ ∀ j, j < n → readBufferByte s loc (k + j) = bs[j]?) ∨
    (readBufferBytes s loc n k = none ∧ ∃ j, j < n ∧ readBufferByte s loc (k + j) = none) := by
  induction n generalizing k with
  | zero => exact .inl ⟨[], rfl, rfl, fun j hj => by omega⟩
  | succ n ih =>
    rw [readBufferBytes]
    match hb : readBufferByte s loc k with
    | none => exact .inr ⟨rfl, 0, by omega, hb⟩
    | some b =>
      rcases ih (k + 1) with ⟨bs, h, hl, hs⟩ | ⟨h, j, hj, hn⟩
      · rw [h]
        refine .inl ⟨b :: bs, rfl, by simp [hl], fun j hj => ?_⟩
        match j with
        | 0 => simpa using hb
        | j + 1 =>
          have e := hs j (by omega)
          rw [show k + 1 + j = k + (j + 1) by omega] at e
          simpa using e
      · rw [h]
        refine .inr ⟨rfl, j + 1, by omega, ?_⟩
        rw [show k + (j + 1) = k + 1 + j by omega]
        exact hn

/-- A Write keeps the parameters and the model's own fields, whatever the location. -/
theorem writeLocation_keeps (loc : Location) (k n : Nat) (v : Word) (s : State) :
    (writeLocation loc k n v s).params = s.params ∧ (writeLocation loc k n v s).busErrors = s.busErrors ∧
    (writeLocation loc k n v s).inputs = s.inputs ∧ (writeLocation loc k n v s).issuer = s.issuer ∧
    (writeLocation loc k n v s).returned = s.returned := by
  cases loc <;> exact ⟨rfl, rfl, rfl, rfl, rfl⟩

end Sys2Proof.Machine
end

