-- ==== Sys2Proof/Laws/Memory.lean ====
section
/-! SUPPORT. The laws of the sparse buffers: a read after a write, the canonical form kept by every operation, and what
gathering a message answers. -/

namespace Sys2Proof.Machine

/-! Reading after writing. -/

theorem Memory.read_write (m : Memory) (k j : Nat) (v : Byte) :
    Memory.read (Memory.write m k v) j = if j = k then some v else Memory.read m j := by
  induction m with
  | nil => simp only [Memory.write, Memory.read, eq_comm (a := k)]
  | cons c m ih =>
    obtain ⟨a, b⟩ := c
    simp only [Memory.write]
    split
    · simp only [Memory.read, eq_comm (a := k)]
    · split
      · rename_i h
        subst h
        simp only [Memory.read, eq_comm (a := k)]
        split <;> simp_all [eq_comm]
      · simp only [Memory.read, ih]
        split
        · rename_i h
          rw [if_neg]
          omega
        · rfl

@[simp] theorem Memory.read_write_same (m : Memory) (k : Nat) (v : Byte) :
    Memory.read (Memory.write m k v) k = some v := by simp [Memory.read_write]

theorem Memory.read_write_other (m : Memory) {k j : Nat} (v : Byte) (h : j ≠ k) :
    Memory.read (Memory.write m k v) j = Memory.read m j := by simp [Memory.read_write, h]

theorem Memory.read_writeBytes (m : Memory) (k j : Nat) (bs : List Byte) :
    Memory.read (Memory.writeBytes m k bs) j =
      if k ≤ j ∧ j < k + bs.length then bs[j - k]? else Memory.read m j := by
  induction bs generalizing m k with
  | nil =>
    simp only [Memory.writeBytes, List.length_nil]
    rw [if_neg (by omega)]
  | cons b bs ih =>
    simp only [Memory.writeBytes, ih, Memory.read_write, List.length_cons]
    by_cases h : j = k
    · subst h
      rw [if_neg (by omega), if_pos rfl, if_pos (by omega)]
      simp
    · rw [if_neg h]
      by_cases h2 : k ≤ j ∧ j < k + (bs.length + 1)
      · rw [if_pos h2, if_pos (by omega)]
        obtain ⟨n, rfl⟩ : ∃ n, j = k + 1 + n := ⟨j - (k + 1), by omega⟩
        rw [show k + 1 + n - k = n + 1 by omega, show k + 1 + n - (k + 1) = n by omega]
        simp
      · rw [if_neg h2, if_neg (by omega)]

theorem Memory.read_writeBytes_outside (m : Memory) {k j : Nat} (bs : List Byte) (h : j < k ∨ k + bs.length ≤ j) :
    Memory.read (Memory.writeBytes m k bs) j = Memory.read m j := by
  rw [Memory.read_writeBytes, if_neg (by omega)]

/-- A written byte stays written. -/
theorem Memory.writeBytes_keeps_written (m : Memory) (k j : Nat) (bs : List Byte) (h : Memory.read m j ≠ none) :
    Memory.read (Memory.writeBytes m k bs) j ≠ none := by
  rw [Memory.read_writeBytes]
  split
  · rename_i hj
    rw [List.getElem?_eq_getElem (by omega)]
    simp
  · exact h

/-! The canonical form. -/

theorem Memory.mem_write {m : Memory} {k : Nat} {v : Byte} {c : Host.Cell} (h : c ∈ Memory.write m k v) :
    c = (k, v) ∨ c ∈ m := by
  induction m with
  | nil => simpa [Memory.write] using h
  | cons d m ih =>
    obtain ⟨a, b⟩ := d
    simp only [Memory.write] at h
    split at h
    · simpa using h
    · split at h
      · rcases List.mem_cons.mp h with h | h
        · exact .inl h
        · exact .inr (List.mem_cons_of_mem _ h)
      · rcases List.mem_cons.mp h with h | h
        · exact .inr (by simp [h])
        · exact (ih h).imp id (List.mem_cons_of_mem _)

theorem Memory.wf_write {m : Memory} (k : Nat) (v : Byte) (h : Memory.wf m) : Memory.wf (Memory.write m k v) := by
  induction m with
  | nil => simp [Memory.wf, Memory.write]
  | cons d m ih =>
    obtain ⟨a, b⟩ := d
    obtain ⟨hlt, hm⟩ := List.pairwise_cons.mp h
    simp only [Memory.write]
    split
    · rename_i hk
      refine List.pairwise_cons.mpr ⟨fun c hc => ?_, h⟩
      rcases List.mem_cons.mp hc with rfl | hc
      · exact hk
      · exact Nat.lt_trans hk (hlt c hc)
    · split
      · rename_i hk
        subst hk
        exact List.pairwise_cons.mpr ⟨hlt, hm⟩
      · refine List.pairwise_cons.mpr ⟨fun c hc => ?_, ih hm⟩
        rcases Memory.mem_write hc with rfl | hc
        · show a < k
          omega
        · exact hlt c hc

theorem Memory.within_write {m : Memory} {k size : Nat} (v : Byte) (hk : k < size) (h : Memory.Within m size) :
    Memory.Within (Memory.write m k v) size := by
  intro c hc
  rcases Memory.mem_write hc with rfl | hc
  · exact hk
  · exact h c hc

theorem Memory.wf_writeBytes {m : Memory} (k : Nat) (bs : List Byte) (h : Memory.wf m) :
    Memory.wf (Memory.writeBytes m k bs) := by
  induction bs generalizing m k with
  | nil => exact h
  | cons b bs ih => exact ih (k + 1) (Memory.wf_write k b h)

theorem Memory.within_writeBytes {m : Memory} {k size : Nat} (bs : List Byte) (hk : k + bs.length ≤ size)
    (h : Memory.Within m size) : Memory.Within (Memory.writeBytes m k bs) size := by
  induction bs generalizing m k with
  | nil => exact h
  | cons b bs ih =>
    rw [List.length_cons] at hk
    exact ih (by omega) (Memory.within_write b (by omega) h)

/-! Gathering a message. -/

/-- The two answers of gathering: every byte is written and these are the bytes, or this is the first unwritten one. -/
theorem Memory.gather_cases (m : Memory) (count k : Nat) :
    (∃ bs, Memory.gather m count k = .ok bs ∧ bs.length = count ∧
      ∀ j, j < count → Memory.read m (k + j) = bs[j]?) ∨
    (∃ j, Memory.gather m count k = .error j ∧ k ≤ j ∧ j < k + count ∧ Memory.read m j = none ∧
      ∀ i, k ≤ i → i < j → Memory.read m i ≠ none) := by
  induction count generalizing k with
  | zero => exact .inl ⟨[], rfl, rfl, by omega⟩
  | succ count ih =>
    cases hr : Memory.read m k with
    | none => exact .inr ⟨k, by simp [Memory.gather, hr], by omega, by omega, hr, by omega⟩
    | some b =>
      rcases ih (k + 1) with ⟨bs, hg, hl, hb⟩ | ⟨j, hg, hkj, hj, hn, hf⟩
      · refine .inl ⟨b :: bs, by simp [Memory.gather, hr, hg], by simp [hl], fun j hj => ?_⟩
        cases j with
        | zero => simpa using hr
        | succ j => simpa [Nat.add_assoc, Nat.add_comm 1] using hb j (by omega)
      · refine .inr ⟨j, by simp [Memory.gather, hr, hg], by omega, by omega, hn, fun i hi hij => ?_⟩
        rcases Nat.eq_or_lt_of_le hi with rfl | hi
        · simp [hr]
        · exact hf i hi hij

theorem Memory.gather_ok {m : Memory} {count k : Nat} {bs : List Byte} (h : Memory.gather m count k = .ok bs) :
    bs.length = count ∧ ∀ j, j < count → Memory.read m (k + j) = bs[j]? := by
  rcases Memory.gather_cases m count k with ⟨bs', h', hl⟩ | ⟨j, h', _⟩
  · rw [h] at h'
    cases h'
    exact hl
  · rw [h] at h'
    cases h'

/-- Gathering answers the bytes when all of them are written. -/
theorem Memory.gather_of_written {m : Memory} {count k : Nat}
    (h : ∀ j, k ≤ j → j < k + count → Memory.read m j ≠ none) : ∃ bs, Memory.gather m count k = .ok bs := by
  rcases Memory.gather_cases m count k with ⟨bs, hg, _⟩ | ⟨j, _, hkj, hj, hn, _⟩
  · exact ⟨bs, hg⟩
  · exact absurd hn (h j hkj hj)

/-- Gathering looks at the bytes it gathers and at no others. -/
theorem Memory.gather_congr {m m' : Memory} {count k : Nat}
    (h : ∀ j, k ≤ j → j < k + count → Memory.read m j = Memory.read m' j) :
    Memory.gather m count k = Memory.gather m' count k := by
  induction count generalizing k with
  | zero => rfl
  | succ count ih =>
    have h0 := h k (by omega) (by omega)
    have h1 := ih (k := k + 1) (fun j hj hj' => h j (by omega) (by omega))
    simp [Memory.gather, h0, h1]

end Sys2Proof.Machine
end

