-- ==== Sys2Proof/Laws/State.lean ====
section
/-! SUPPORT. One lemma per field per update of State, each true by rfl and a simp lemma, so that no proof unfolds a record
update. -/

namespace Sys2Proof.Machine

/-! `finish`, the STATUS update. -/

@[simp] theorem State.finish_params (c : ResultCode) (op : Byte) (s : State) : (s.finish c op).params = s.params := rfl
@[simp] theorem State.finish_cmd (c : ResultCode) (op : Byte) (s : State) : (s.finish c op).cmd = s.cmd := rfl
@[simp] theorem State.finish_result (c : ResultCode) (op : Byte) (s : State) : (s.finish c op).result = c := rfl
@[simp] theorem State.finish_lastop (c : ResultCode) (op : Byte) (s : State) : (s.finish c op).lastop = op := rfl
@[simp] theorem State.finish_keyidx (c : ResultCode) (op : Byte) (s : State) : (s.finish c op).keyidx = s.keyidx := rfl
@[simp] theorem State.finish_keyused (c : ResultCode) (op : Byte) (s : State) : (s.finish c op).keyused = s.keyused := rfl
@[simp] theorem State.finish_rate (c : ResultCode) (op : Byte) (s : State) : (s.finish c op).rate = s.rate := rfl
@[simp] theorem State.finish_capacity (c : ResultCode) (op : Byte) (s : State) : (s.finish c op).capacity = s.capacity := rfl
@[simp] theorem State.finish_suffix (c : ResultCode) (op : Byte) (s : State) : (s.finish c op).suffix = s.suffix := rfl
@[simp] theorem State.finish_inlen (c : ResultCode) (op : Byte) (s : State) : (s.finish c op).inlen = s.inlen := rfl
@[simp] theorem State.finish_outlen (c : ResultCode) (op : Byte) (s : State) : (s.finish c op).outlen = s.outlen := rfl
@[simp] theorem State.finish_block (c : ResultCode) (op : Byte) (s : State) : (s.finish c op).block = s.block := rfl
@[simp] theorem State.finish_ksched (c : ResultCode) (op : Byte) (s : State) : (s.finish c op).ksched = s.ksched := rfl
@[simp] theorem State.finish_kstate (c : ResultCode) (op : Byte) (s : State) : (s.finish c op).kstate = s.kstate := rfl
@[simp] theorem State.finish_ibuf (c : ResultCode) (op : Byte) (s : State) : (s.finish c op).ibuf = s.ibuf := rfl
@[simp] theorem State.finish_obuf (c : ResultCode) (op : Byte) (s : State) : (s.finish c op).obuf = s.obuf := rfl
@[simp] theorem State.finish_busErrors (c : ResultCode) (op : Byte) (s : State) : (s.finish c op).busErrors = s.busErrors := rfl
@[simp] theorem State.finish_inputs (c : ResultCode) (op : Byte) (s : State) : (s.finish c op).inputs = s.inputs := rfl
@[simp] theorem State.finish_issuer (c : ResultCode) (op : Byte) (s : State) : (s.finish c op).issuer = s.issuer := rfl
@[simp] theorem State.finish_returned (c : ResultCode) (op : Byte) (s : State) : (s.finish c op).returned = s.returned := rfl

/-! `recordBusError`. -/

@[simp] theorem State.recordBusError_params (e : BusError) (s : State) : (s.recordBusError e).params = s.params := rfl
@[simp] theorem State.recordBusError_cmd (e : BusError) (s : State) : (s.recordBusError e).cmd = s.cmd := rfl
@[simp] theorem State.recordBusError_result (e : BusError) (s : State) : (s.recordBusError e).result = s.result := rfl
@[simp] theorem State.recordBusError_lastop (e : BusError) (s : State) : (s.recordBusError e).lastop = s.lastop := rfl
@[simp] theorem State.recordBusError_keyidx (e : BusError) (s : State) : (s.recordBusError e).keyidx = s.keyidx := rfl
@[simp] theorem State.recordBusError_keyused (e : BusError) (s : State) : (s.recordBusError e).keyused = s.keyused := rfl
@[simp] theorem State.recordBusError_rate (e : BusError) (s : State) : (s.recordBusError e).rate = s.rate := rfl
@[simp] theorem State.recordBusError_capacity (e : BusError) (s : State) : (s.recordBusError e).capacity = s.capacity := rfl
@[simp] theorem State.recordBusError_suffix (e : BusError) (s : State) : (s.recordBusError e).suffix = s.suffix := rfl
@[simp] theorem State.recordBusError_inlen (e : BusError) (s : State) : (s.recordBusError e).inlen = s.inlen := rfl
@[simp] theorem State.recordBusError_outlen (e : BusError) (s : State) : (s.recordBusError e).outlen = s.outlen := rfl
@[simp] theorem State.recordBusError_block (e : BusError) (s : State) : (s.recordBusError e).block = s.block := rfl
@[simp] theorem State.recordBusError_ksched (e : BusError) (s : State) : (s.recordBusError e).ksched = s.ksched := rfl
@[simp] theorem State.recordBusError_kstate (e : BusError) (s : State) : (s.recordBusError e).kstate = s.kstate := rfl
@[simp] theorem State.recordBusError_ibuf (e : BusError) (s : State) : (s.recordBusError e).ibuf = s.ibuf := rfl
@[simp] theorem State.recordBusError_obuf (e : BusError) (s : State) : (s.recordBusError e).obuf = s.obuf := rfl
@[simp] theorem State.recordBusError_busErrors (e : BusError) (s : State) : (s.recordBusError e).busErrors = s.busErrors ++ [e] := rfl
@[simp] theorem State.recordBusError_inputs (e : BusError) (s : State) : (s.recordBusError e).inputs = s.inputs := rfl
@[simp] theorem State.recordBusError_issuer (e : BusError) (s : State) : (s.recordBusError e).issuer = s.issuer := rfl
@[simp] theorem State.recordBusError_returned (e : BusError) (s : State) : (s.recordBusError e).returned = s.returned := rfl

/-! `returnValue`. -/

@[simp] theorem State.returnValue_params (r : Reply) (s : State) : (s.returnValue r).params = s.params := rfl
@[simp] theorem State.returnValue_cmd (r : Reply) (s : State) : (s.returnValue r).cmd = s.cmd := rfl
@[simp] theorem State.returnValue_result (r : Reply) (s : State) : (s.returnValue r).result = s.result := rfl
@[simp] theorem State.returnValue_lastop (r : Reply) (s : State) : (s.returnValue r).lastop = s.lastop := rfl
@[simp] theorem State.returnValue_keyidx (r : Reply) (s : State) : (s.returnValue r).keyidx = s.keyidx := rfl
@[simp] theorem State.returnValue_keyused (r : Reply) (s : State) : (s.returnValue r).keyused = s.keyused := rfl
@[simp] theorem State.returnValue_rate (r : Reply) (s : State) : (s.returnValue r).rate = s.rate := rfl
@[simp] theorem State.returnValue_capacity (r : Reply) (s : State) : (s.returnValue r).capacity = s.capacity := rfl
@[simp] theorem State.returnValue_suffix (r : Reply) (s : State) : (s.returnValue r).suffix = s.suffix := rfl
@[simp] theorem State.returnValue_inlen (r : Reply) (s : State) : (s.returnValue r).inlen = s.inlen := rfl
@[simp] theorem State.returnValue_outlen (r : Reply) (s : State) : (s.returnValue r).outlen = s.outlen := rfl
@[simp] theorem State.returnValue_block (r : Reply) (s : State) : (s.returnValue r).block = s.block := rfl
@[simp] theorem State.returnValue_ksched (r : Reply) (s : State) : (s.returnValue r).ksched = s.ksched := rfl
@[simp] theorem State.returnValue_kstate (r : Reply) (s : State) : (s.returnValue r).kstate = s.kstate := rfl
@[simp] theorem State.returnValue_ibuf (r : Reply) (s : State) : (s.returnValue r).ibuf = s.ibuf := rfl
@[simp] theorem State.returnValue_obuf (r : Reply) (s : State) : (s.returnValue r).obuf = s.obuf := rfl
@[simp] theorem State.returnValue_busErrors (r : Reply) (s : State) : (s.returnValue r).busErrors = s.busErrors := rfl
@[simp] theorem State.returnValue_inputs (r : Reply) (s : State) : (s.returnValue r).inputs = s.inputs := rfl
@[simp] theorem State.returnValue_issuer (r : Reply) (s : State) : (s.returnValue r).issuer = s.issuer := rfl
@[simp] theorem State.returnValue_returned (r : Reply) (s : State) : (s.returnValue r).returned = s.returned ++ [r] := rfl

/-! `afterReset`. -/

@[simp] theorem State.afterReset_params (s : State) : (s.afterReset).params = s.params := rfl
@[simp] theorem State.afterReset_cmd (s : State) : (s.afterReset).cmd = 0 := rfl
@[simp] theorem State.afterReset_result (s : State) : (s.afterReset).result = .none := rfl
@[simp] theorem State.afterReset_lastop (s : State) : (s.afterReset).lastop = 0 := rfl
@[simp] theorem State.afterReset_keyidx (s : State) : (s.afterReset).keyidx = 0 := rfl
@[simp] theorem State.afterReset_keyused (s : State) : (s.afterReset).keyused = 0 := rfl
@[simp] theorem State.afterReset_rate (s : State) : (s.afterReset).rate = 0 := rfl
@[simp] theorem State.afterReset_capacity (s : State) : (s.afterReset).capacity = 0 := rfl
@[simp] theorem State.afterReset_suffix (s : State) : (s.afterReset).suffix = 0 := rfl
@[simp] theorem State.afterReset_inlen (s : State) : (s.afterReset).inlen = 0 := rfl
@[simp] theorem State.afterReset_outlen (s : State) : (s.afterReset).outlen = 0 := rfl
@[simp] theorem State.afterReset_block (s : State) : (s.afterReset).block = Vector.replicate 16 0 := rfl
@[simp] theorem State.afterReset_ksched (s : State) : (s.afterReset).ksched = Vector.replicate 176 0 := rfl
@[simp] theorem State.afterReset_kstate (s : State) : (s.afterReset).kstate = Vector.replicate 200 0 := rfl
@[simp] theorem State.afterReset_ibuf (s : State) : (s.afterReset).ibuf = [] := rfl
@[simp] theorem State.afterReset_obuf (s : State) : (s.afterReset).obuf = [] := rfl
@[simp] theorem State.afterReset_busErrors (s : State) : (s.afterReset).busErrors = [] := rfl
@[simp] theorem State.afterReset_inputs (s : State) : (s.afterReset).inputs = s.inputs := rfl
@[simp] theorem State.afterReset_issuer (s : State) : (s.afterReset).issuer = s.issuer := rfl
@[simp] theorem State.afterReset_returned (s : State) : (s.afterReset).returned = s.returned := rfl

/-! `expandSelectedKey`. -/

@[simp] theorem State.expandSelectedKey_params (s : State) : (s.expandSelectedKey).params = s.params := rfl
@[simp] theorem State.expandSelectedKey_cmd (s : State) : (s.expandSelectedKey).cmd = s.cmd := rfl
@[simp] theorem State.expandSelectedKey_result (s : State) : (s.expandSelectedKey).result = s.result := rfl
@[simp] theorem State.expandSelectedKey_lastop (s : State) : (s.expandSelectedKey).lastop = s.lastop := rfl
@[simp] theorem State.expandSelectedKey_keyidx (s : State) : (s.expandSelectedKey).keyidx = s.keyidx := rfl
@[simp] theorem State.expandSelectedKey_keyused (s : State) : (s.expandSelectedKey).keyused = (resolveKey s.params s.keyidx).1 := rfl
@[simp] theorem State.expandSelectedKey_rate (s : State) : (s.expandSelectedKey).rate = s.rate := rfl
@[simp] theorem State.expandSelectedKey_capacity (s : State) : (s.expandSelectedKey).capacity = s.capacity := rfl
@[simp] theorem State.expandSelectedKey_suffix (s : State) : (s.expandSelectedKey).suffix = s.suffix := rfl
@[simp] theorem State.expandSelectedKey_inlen (s : State) : (s.expandSelectedKey).inlen = s.inlen := rfl
@[simp] theorem State.expandSelectedKey_outlen (s : State) : (s.expandSelectedKey).outlen = s.outlen := rfl
@[simp] theorem State.expandSelectedKey_block (s : State) : (s.expandSelectedKey).block = s.block := rfl
@[simp] theorem State.expandSelectedKey_ksched (s : State) : (s.expandSelectedKey).ksched = expandKey (resolveKey s.params s.keyidx).2 := rfl
@[simp] theorem State.expandSelectedKey_kstate (s : State) : (s.expandSelectedKey).kstate = s.kstate := rfl
@[simp] theorem State.expandSelectedKey_ibuf (s : State) : (s.expandSelectedKey).ibuf = s.ibuf := rfl
@[simp] theorem State.expandSelectedKey_obuf (s : State) : (s.expandSelectedKey).obuf = s.obuf := rfl
@[simp] theorem State.expandSelectedKey_busErrors (s : State) : (s.expandSelectedKey).busErrors = s.busErrors := rfl
@[simp] theorem State.expandSelectedKey_inputs (s : State) : (s.expandSelectedKey).inputs = s.inputs := rfl
@[simp] theorem State.expandSelectedKey_issuer (s : State) : (s.expandSelectedKey).issuer = s.issuer := rfl
@[simp] theorem State.expandSelectedKey_returned (s : State) : (s.expandSelectedKey).returned = s.returned := rfl

/-! `offer`. -/

@[simp] theorem State.offer_params (i : Input) (s : State) : (s.offer i).params = s.params := rfl
@[simp] theorem State.offer_cmd (i : Input) (s : State) : (s.offer i).cmd = s.cmd := rfl
@[simp] theorem State.offer_result (i : Input) (s : State) : (s.offer i).result = s.result := rfl
@[simp] theorem State.offer_lastop (i : Input) (s : State) : (s.offer i).lastop = s.lastop := rfl
@[simp] theorem State.offer_keyidx (i : Input) (s : State) : (s.offer i).keyidx = s.keyidx := rfl
@[simp] theorem State.offer_keyused (i : Input) (s : State) : (s.offer i).keyused = s.keyused := rfl
@[simp] theorem State.offer_rate (i : Input) (s : State) : (s.offer i).rate = s.rate := rfl
@[simp] theorem State.offer_capacity (i : Input) (s : State) : (s.offer i).capacity = s.capacity := rfl
@[simp] theorem State.offer_suffix (i : Input) (s : State) : (s.offer i).suffix = s.suffix := rfl
@[simp] theorem State.offer_inlen (i : Input) (s : State) : (s.offer i).inlen = s.inlen := rfl
@[simp] theorem State.offer_outlen (i : Input) (s : State) : (s.offer i).outlen = s.outlen := rfl
@[simp] theorem State.offer_block (i : Input) (s : State) : (s.offer i).block = s.block := rfl
@[simp] theorem State.offer_ksched (i : Input) (s : State) : (s.offer i).ksched = s.ksched := rfl
@[simp] theorem State.offer_kstate (i : Input) (s : State) : (s.offer i).kstate = s.kstate := rfl
@[simp] theorem State.offer_ibuf (i : Input) (s : State) : (s.offer i).ibuf = s.ibuf := rfl
@[simp] theorem State.offer_obuf (i : Input) (s : State) : (s.offer i).obuf = s.obuf := rfl
@[simp] theorem State.offer_busErrors (i : Input) (s : State) : (s.offer i).busErrors = s.busErrors := rfl
@[simp] theorem State.offer_inputs (i : Input) (s : State) : (s.offer i).inputs = i :: s.inputs := rfl
@[simp] theorem State.offer_issuer (i : Input) (s : State) : (s.offer i).issuer = s.issuer := rfl
@[simp] theorem State.offer_returned (i : Input) (s : State) : (s.offer i).returned = s.returned := rfl

end Sys2Proof.Machine
end

