-- ==== Sys2Proof/Laws/Commands.lean ====
section
/-! SUPPORT. What the shared body of the sponge commands can do, what each arm of `exec` is, and the lengths of the sponge's
output. -/

namespace Sys2Proof.Machine

/-! The arms of `exec`, one lemma each. -/

theorem exec_expandkey (s : State) : exec .expandkey s = .next (s.expandSelectedKey.finish .ok 0x01) := rfl

theorem exec_encrypt (s : State) :
    exec .encrypt s =
      .next (State.finish .ok 0x02
        { s.expandSelectedKey with block := cipher s.block (expandKey (resolveKey s.params s.keyidx).2) }) := rfl

theorem exec_decrypt (s : State) :
    exec .decrypt s =
      .next (State.finish .ok 0x03
        { s.expandSelectedKey with block := invCipher s.block (expandKey (resolveKey s.params s.keyidx).2) }) := rfl

theorem exec_keccakf (s : State) : exec .keccakf s = .next (State.finish .ok 0x10 { s with kstate := keccakF s.kstate }) := rfl

theorem exec_keccak (s : State) :
    exec .keccak s = spongeCommand s.rate.toNat s.capacity.toNat s.suffix s.inlen.toNat s.outlen.toNat 0x11 s := rfl

theorem exec_shake128 (s : State) : exec .shake128 s = spongeCommand 1344 256 0x1F s.inlen.toNat s.outlen.toNat 0x20 s := rfl

theorem exec_shake256 (s : State) : exec .shake256 s = spongeCommand 1088 512 0x1F s.inlen.toNat s.outlen.toNat 0x21 s := rfl

theorem exec_sha3_224 (s : State) : exec .sha3_224 s = spongeCommand 1152 448 0x06 s.inlen.toNat 28 0x22 s := rfl

theorem exec_sha3_256 (s : State) : exec .sha3_256 s = spongeCommand 1088 512 0x06 s.inlen.toNat 32 0x23 s := rfl

theorem exec_sha3_384 (s : State) : exec .sha3_384 s = spongeCommand 832 768 0x06 s.inlen.toNat 48 0x24 s := rfl

theorem exec_sha3_512 (s : State) : exec .sha3_512 s = spongeCommand 576 1024 0x06 s.inlen.toNat 64 0x25 s := rfl

/-! The shared body of the sponge commands. -/

/-- The four checks of 44_sponge.md R300 and R301 pass. -/
def ChecksPass (rt cp n len : Nat) (s : State) : Prop :=
  paramsOk rt cp = true ∧ rt ≠ 0 ∧ n ≤ s.params.ibufBytes ∧ len ≤ s.params.obufBytes

/-- The state a sponge command leaves when it completes (44_sponge.md R309). -/
def spongeState (rt : Nat) (sf : Byte) (msg : List Byte) (len : Nat) (op : Byte) (s : State) : State :=
  State.finish .ok op
    { s with obuf := Memory.writeBytes s.obuf 0 (sponge rt sf msg len).1, kstate := (sponge rt sf msg len).2 }

/-- All a sponge command can do (44_sponge.md R309): fail one of the four checks, in their order, meet an unwritten message
byte, or complete. -/
theorem spongeCommand_cases (rt cp : Nat) (sf : Byte) (n len : Nat) (op : Byte) (s : State) :
    (paramsOk rt cp = false ∧ spongeCommand rt cp sf n len op s = .next (s.finish .errParams op)) ∨
    (paramsOk rt cp = true ∧ rt = 0 ∧ spongeCommand rt cp sf n len op s = .next (s.finish .errRateZero op)) ∨
    (paramsOk rt cp = true ∧ rt ≠ 0 ∧ s.params.ibufBytes < n ∧
      spongeCommand rt cp sf n len op s = .next (s.finish .errInlen op)) ∨
    (paramsOk rt cp = true ∧ rt ≠ 0 ∧ n ≤ s.params.ibufBytes ∧ s.params.obufBytes < len ∧
      spongeCommand rt cp sf n len op s = .next (s.finish .errOutlen op)) ∨
    (ChecksPass rt cp n len s ∧ ∃ k, message s n = .error k ∧
      spongeCommand rt cp sf n len op s = .fault (.unwritten s.issuer 0 k)) ∨
    (ChecksPass rt cp n len s ∧ ∃ msg, message s n = .ok msg ∧
      spongeCommand rt cp sf n len op s = .next (spongeState rt sf msg len op s)) := by
  unfold spongeCommand
  split
  · exact .inl ⟨‹_›, rfl⟩
  · rename_i h1
    have h1 : paramsOk rt cp = true := by simpa using h1
    split
    · exact .inr (.inl ⟨h1, ‹_›, rfl⟩)
    · rename_i h2
      split
      · exact .inr (.inr (.inl ⟨h1, h2, ‹_›, rfl⟩))
      · rename_i h3
        split
        · exact .inr (.inr (.inr (.inl ⟨h1, h2, Nat.le_of_not_lt h3, ‹_›, rfl⟩)))
        · rename_i h4
          have hp : ChecksPass rt cp n len s := ⟨h1, h2, Nat.le_of_not_lt h3, Nat.le_of_not_lt h4⟩
          split
          · exact .inr (.inr (.inr (.inr (.inl ⟨hp, _, ‹_›, rfl⟩))))
          · exact .inr (.inr (.inr (.inr (.inr ⟨hp, _, ‹_›, rfl⟩))))

/-- A sponge command that answers a next state failed one of its checks or completed. -/
theorem spongeCommand_next {rt cp : Nat} {sf : Byte} {n len : Nat} {op : Byte} {s t : State}
    (h : spongeCommand rt cp sf n len op s = .next t) :
    (∃ c, c ∈ [ResultCode.errParams, .errRateZero, .errInlen, .errOutlen] ∧ t = s.finish c op) ∨
    (ChecksPass rt cp n len s ∧ ∃ msg, message s n = .ok msg ∧ t = spongeState rt sf msg len op s) := by
  rcases spongeCommand_cases rt cp sf n len op s with ⟨_, h'⟩ | ⟨_, _, h'⟩ | ⟨_, _, _, h'⟩ | ⟨_, _, _, _, h'⟩ |
    ⟨_, _, _, h'⟩ | ⟨hp, msg, hm, h'⟩ <;> rw [h] at h' <;> cases h'
  · exact .inl ⟨_, by simp, rfl⟩
  · exact .inl ⟨_, by simp, rfl⟩
  · exact .inl ⟨_, by simp, rfl⟩
  · exact .inl ⟨_, by simp, rfl⟩
  · exact .inr ⟨hp, msg, hm, rfl⟩

/-- A sponge command that passes its checks and finds a written message completes. -/
theorem spongeCommand_completes {rt cp n len : Nat} {s : State} {msg : List Byte} (sf : Byte) (op : Byte)
    (hc : ChecksPass rt cp n len s) (hm : message s n = .ok msg) :
    spongeCommand rt cp sf n len op s = .next (spongeState rt sf msg len op s) := by
  obtain ⟨h1, h2, h3, h4⟩ := hc
  unfold spongeCommand
  rw [if_neg (by simp [h1]), if_neg h2, if_neg (by omega), if_neg (by omega), hm]
  rfl

@[simp] theorem spongeState_result (rt : Nat) (sf : Byte) (msg : List Byte) (len : Nat) (op : Byte) (s : State) :
    (spongeState rt sf msg len op s).result = .ok := rfl

/-! The output of the sponge. -/

/-- With a window inside the state and fuel enough, squeezing answers as many bytes as asked for (44_sponge.md R306). -/
theorem squeezeCopies_length (rb fuel : Nat) (s : KeccakState) (len : Nat) (h1 : 1 ≤ rb) (h2 : rb ≤ 200)
    (hf : len ≤ fuel) : (squeezeCopies rb fuel s len).1.length = len := by
  induction fuel generalizing s len with
  | zero =>
    obtain rfl : len = 0 := by omega
    rfl
  | succ fuel ih =>
    simp only [squeezeCopies]
    split
    · simp
      omega
    · simp only [List.length_append, List.length_take, Vector.length_toList]
      rw [ih _ _ (by omega)]
      omega

/-- The sponge answers as many bytes as asked for (44_sponge.md R307). -/
theorem sponge_length (rt : Nat) (sf : Byte) (msg : List Byte) (len : Nat) (h1 : 8 ≤ rt) (h2 : rt ≤ 1600) :
    (sponge rt sf msg len).1.length = len :=
  squeezeCopies_length (rt / 8) len _ len (by omega) (by omega) (Nat.le_refl _)

/-- A rate that passes the checks is a window of 1 to 200 bytes. -/
theorem ChecksPass.rate_bounds {rt cp n len : Nat} {s : State} (h : ChecksPass rt cp n len s) : 8 ≤ rt ∧ rt ≤ 1600 := by
  obtain ⟨hp, h0, _⟩ := h
  simp only [paramsOk, Bool.and_eq_true, beq_iff_eq] at hp
  omega

end Sys2Proof.Machine
end

