-- ==== Sys2Proof/Laws/HostPort.lean ====
section
/-! SUPPORT. What the checks of a host access establish, and all that one step can do. -/

namespace Sys2Proof.Machine

/-- What passing the checks establishes (20_memory.md R81): the location is one of the map that covers the whole access, the
access has one of its widths, and a Write reaches a writable location. -/
theorem checkAccess_ok {p : Params} {kind : AccessKind} {off : Word} {n : Nat} {e : MapEntry}
    (h : checkAccess p kind off n = .ok e) :
    e ∈ hostMap p ∧ (n = 1 ∨ n = 4) ∧ off.toNat % n = 0 ∧ e.base ≤ off.toNat ∧ off.toNat + n ≤ e.base + e.size ∧
      (e.isRegister = true → n = 4) ∧ (kind = .write → e.rights = .rw) := by
  unfold checkAccess at h
  split at h
  · cases h
  · split at h
    · cases h
    · split at h
      · cases h
      · rename_i hn ho _ f hf
        split at h
        · cases h
        · split at h
          · cases h
          · split at h
            · cases h
            · rename_i h1 h2 h3
              cases h
              have hm := List.mem_of_find?_eq_some hf
              have hc := List.find?_some hf
              simp only [covers, decide_eq_true_eq] at hc
              simp only [covers, Bool.not_eq_false, decide_eq_true_eq] at h1
              refine ⟨hm, by omega, by omega, by omega, by omega, fun hr => ?_, fun hk => ?_⟩
              · by_contra h4
                exact h2 ⟨hr, h4⟩
              · cases hx : e.rights
                · rfl
                · exact absurd ⟨hk, hx⟩ h3

theorem step_offer_access (s : State) (a : Access) : step (s.offer (.access a)) = performAccess a s := rfl

theorem step_offer_reset (s : State) : step (s.offer .reset) = .next s.afterReset := rfl

theorem step_idle {s : State} (h : s.inputs = []) : step s = .next s := by simp [step, performNext, h]

theorem step_reset {s : State} {rest : List Input} (h : s.inputs = .reset :: rest) :
    step s = .next (State.afterReset { s with inputs := rest }) := by simp [step, performNext, h]

theorem step_access {s : State} {a : Access} {rest : List Input} (h : s.inputs = .access a :: rest) :
    step s = performAccess a { s with inputs := rest } := by simp [step, performNext, h]

/-! What is read at a location does not depend on who reads it. -/

@[simp] theorem readRegister_issuer (s : State) (h : Nat) (loc : Location) :
    readRegister { s with issuer := h } loc = readRegister s loc := by cases loc <;> rfl

@[simp] theorem readBufferByte_issuer (s : State) (h : Nat) (loc : Location) (k : Nat) :
    readBufferByte { s with issuer := h } loc k = readBufferByte s loc k := by cases loc <;> rfl

@[simp] theorem readBufferBytes_issuer (s : State) (h : Nat) (loc : Location) (n k : Nat) :
    readBufferBytes { s with issuer := h } loc n k = readBufferBytes s loc n k := by
  induction n generalizing k with
  | zero => rfl
  | succ n ih => simp only [readBufferBytes, readBufferByte_issuer, ih]

@[simp] theorem readLocation_issuer (s : State) (h : Nat) (loc : Location) (k n : Nat) :
    readLocation { s with issuer := h } loc k n = readLocation s loc k n := by
  simp only [readLocation, readRegister_issuer, readBufferBytes_issuer]

/-- All an access can do when it answers a next state: a bus error is recorded, a Read returns a value, a Write stores one, or
a Write of CMD performs a command. -/
theorem performAccess_next {a : Access} {s t : State} (h : performAccess a s = .next t) :
    a.host < s.params.numHosts ∧
    ((∃ r, checkAccess s.params a.kind a.off a.n = .error r ∧
        t = State.recordBusError ⟨a.host, a.kind, a.off, a.n, r⟩ { s with issuer := a.host }) ∨
     (a.kind = .read ∧ ∃ e v, checkAccess s.params .read a.off a.n = .ok e ∧
        readLocation s e.loc (a.off.toNat - e.base) a.n = some v ∧
        t = State.returnValue ⟨a.host, a.off, a.n, v⟩ { s with issuer := a.host }) ∨
     (a.kind = .write ∧ ∃ e, checkAccess s.params .write a.off a.n = .ok e ∧ e.loc ≠ .cmd ∧
        t = writeLocation e.loc (a.off.toNat - e.base) a.n a.value { s with issuer := a.host }) ∨
     (a.kind = .write ∧ ∃ e, checkAccess s.params .write a.off a.n = .ok e ∧ e.loc = .cmd ∧
        perform a.value { s with issuer := a.host, cmd := a.value } = .next t)) := by
  obtain ⟨host, kind, off, n, value⟩ := a
  unfold performAccess at h
  split at h
  · rename_i hh
    refine ⟨hh, ?_⟩
    cases kind with
    | read =>
      simp only [performRead] at h
      split at h
      · rename_i r hr
        cases h
        exact .inl ⟨r, hr, rfl⟩
      · rename_i e he
        split at h
        · rename_i v hv
          rw [readLocation_issuer] at hv
          cases h
          exact .inr (.inl ⟨rfl, e, v, he, hv, rfl⟩)
        · cases h
    | write =>
      simp only [performWrite] at h
      split at h
      · rename_i r hr
        cases h
        exact .inl ⟨r, hr, rfl⟩
      · rename_i e he
        split at h
        · rename_i hc
          rw [hc] at h
          exact .inr (.inr (.inr ⟨rfl, e, he, hc, h⟩))
        · rename_i hc
          cases h
          exact .inr (.inr (.inl ⟨rfl, e, he, hc, rfl⟩))
  · cases h

/-- All a step can do when it answers a next state: nothing is pending, the platform resets, or an access is performed. -/
theorem step_next {s t : State} (h : step s = .next t) :
    (s.inputs = [] ∧ t = s) ∨
    (∃ rest, s.inputs = .reset :: rest ∧ t = State.afterReset { s with inputs := rest }) ∨
    (∃ a rest, s.inputs = .access a :: rest ∧ performAccess a { s with inputs := rest } = .next t) := by
  match hi : s.inputs with
  | [] =>
    rw [step_idle hi] at h
    cases h
    exact .inl ⟨rfl, rfl⟩
  | .reset :: rest =>
    rw [step_reset hi] at h
    cases h
    exact .inr (.inl ⟨rest, rfl, rfl⟩)
  | .access a :: rest =>
    rw [step_access hi] at h
    exact .inr (.inr ⟨a, rest, rfl, h⟩)

/-- What performing a command word can do (30_encoding.md R122 to R124). -/
theorem perform_cases (v : Word) (s : State) :
    (∃ i, decode v = .ok i ∧ perform v s = exec i s) ∨
    (decode v = .error .reserved ∧ perform v s = .next (s.finish .errReserved (opcodeField v))) ∨
    (decode v = .error .undefinedOpcode ∧ perform v s = .next (s.finish .errOpcode (opcodeField v))) := by
  unfold perform
  split
  · exact .inl ⟨_, ‹_›, rfl⟩
  · exact .inr (.inl ⟨‹_›, rfl⟩)
  · exact .inr (.inr ⟨‹_›, rfl⟩)

end Sys2Proof.Machine
end

