-- ==== Sys2Proof/Laws/Keccak.lean ====
section
/-! SUPPORT. The Keccak state as a 5 by 5 array of lanes, lane by lane. -/

namespace Sys2Proof.Machine

@[simp] theorem lane_ofLanes (f : Fin 5 → Fin 5 → Lane) (x y : Fin 5) : lane (ofLanes f) x y = f x y := by
  simp only [lane, ofLanes, Vector.getElem_ofFn]
  congr 1
  · apply Fin.ext
    simp
  · apply Fin.ext
    simp
    omega

/-- Two arrays with the same lanes are the same array. -/
theorem lanes_ext {a b : Lanes} (h : ∀ x y, lane a x y = lane b x y) : a = b := by
  apply Vector.ext
  intro i hi
  have hl := h ⟨i % 5, by omega⟩ ⟨i / 5, by omega⟩
  simp only [lane] at hl
  have hi' : i % 5 + 5 * (i / 5) = i := by omega
  simpa only [hi'] using hl

/-- A lane of an array after `A[u][v] <- w`. -/
theorem lane_setLane (a : Lanes) (u v x y : Fin 5) (w : Lane) :
    lane (setLane a u v w) x y = if x = u ∧ y = v then w else lane a x y := by
  simp only [lane, setLane, Vector.getElem_set]
  by_cases h : x = u ∧ y = v
  · obtain ⟨rfl, rfl⟩ := h
    simp
  · rw [if_neg h, if_neg]
    rintro he
    apply h
    constructor <;> apply Fin.ext <;> omega

/-- Rounds from the front: `n + 1` rounds are one turn of the loop, then `n` (43_keccak_permutation.md R270). -/
theorem permute_succ (n : Nat) (p : Lanes × Byte) : permute (n + 1) p = permute n (permuteStep p) := rfl

/-- Rounds from the back. -/
theorem permute_succ' (n : Nat) (p : Lanes × Byte) : permute (n + 1) p = permuteStep (permute n p) := by
  induction n generalizing p with
  | zero => rfl
  | succ n ih => rw [permute_succ, ih, permute_succ]

end Sys2Proof.Machine
end

