-- ==== Sys2Proof/Laws/PerInstr.lean ====
section
/-! SUPPORT. Statements made per instruction, about the instruction as syntax: one lemma per constructor. -/

namespace Sys2Proof.Laws.Encoding

/-- The word of a command holds its opcode in bits 7:0 and zeros in bits 31:8 (30_encoding.md R120, R122). -/
def Statement (i : Instr) : Prop := opcodeField (encode i) = opcode i ∧ reservedField (encode i) = 0

theorem expandkey : Statement .expandkey := ⟨rfl, rfl⟩
theorem encrypt : Statement .encrypt := ⟨rfl, rfl⟩
theorem decrypt : Statement .decrypt := ⟨rfl, rfl⟩
theorem keccakf : Statement .keccakf := ⟨rfl, rfl⟩
theorem keccak : Statement .keccak := ⟨rfl, rfl⟩
theorem shake128 : Statement .shake128 := ⟨rfl, rfl⟩
theorem shake256 : Statement .shake256 := ⟨rfl, rfl⟩
theorem sha3_224 : Statement .sha3_224 := ⟨rfl, rfl⟩
theorem sha3_256 : Statement .sha3_256 := ⟨rfl, rfl⟩
theorem sha3_384 : Statement .sha3_384 := ⟨rfl, rfl⟩
theorem sha3_512 : Statement .sha3_512 := ⟨rfl, rfl⟩

end Sys2Proof.Laws.Encoding
end

