-- ==== Sys2Proof/Machine/Assembler.lean ====
section
/-! DEFINITION. The text form of host programs: numbers (00_scope.md rule R13), comments, register and buffer names and the
statements of 30_encoding.md rules R127 and R128, one statement a line. A text is a list of characters. -/

namespace Sys2Proof.Machine

/-! Numbers. -/

/-- The value of a hexadecimal digit, in either case. -/
def digitValue (c : Char) : Option Nat :=
  if '0' ≤ c ∧ c ≤ '9' then some (c.toNat - '0'.toNat)
  else if 'a' ≤ c ∧ c ≤ 'f' then some (c.toNat - 'a'.toNat + 10)
  else if 'A' ≤ c ∧ c ≤ 'F' then some (c.toNat - 'A'.toNat + 10)
  else none

/-- A row of digits below `base`, on from the value `acc`. -/
def digitsFrom (base : Nat) : (acc : Nat) → List Char → Option Nat
  | acc, [] => some acc
  | acc, c :: cs =>
    match digitValue c with
    | none   => none
    | some d => if d < base then digitsFrom base (base * acc + d) cs else none

/-- One or more digits. -/
def digits (base : Nat) : List Char → Option Nat
  | [] => none
  | c :: cs => digitsFrom base 0 (c :: cs)

/-- A number: decimal, or hexadecimal after `0x` (00_scope.md R13). -/
def parseNumber : List Char → Option Nat
  | '0' :: 'x' :: cs => digits 16 cs
  | cs => digits 10 cs

/-- A number that fits in a word. -/
def parseWord (cs : List Char) : Option Word :=
  (parseNumber cs).bind fun n => if n < 2 ^ 32 then some (BitVec.ofNat 32 n) else none

/-- A number that fits in a byte. -/
def parseByte (cs : List Char) : Option Byte :=
  (parseNumber cs).bind fun n => if n < 256 then some (BitVec.ofNat 8 n) else none

/-- A byte as LOADBLK and LOADMSG take it, two hexadecimal digits as in a FIPS test vector (R128). -/
def parseHexPair : List Char → Option Byte
  | [h, l] => (digits 16 [h, l]).map (BitVec.ofNat 8)
  | _ => none

/-- Several operands of one form. -/
def parseAll {α : Type} (parse : List Char → Option α) : List (List Char) → Option (List α)
  | [] => some []
  | t :: ts => (parse t).bind fun a => (parseAll parse ts).map fun as => a :: as

/-! Offsets. -/

/-- The register names, which stand for their offsets (R127, 10_state.md R32). -/
def registerNames : List (List Char × Nat) :=
  [(['C', 'M', 'D'], 0x000), (['S', 'T', 'A', 'T', 'U', 'S'], 0x004), (['K', 'E', 'Y', 'I', 'D', 'X'], 0x008),
   (['K', 'E', 'Y', 'U', 'S', 'E', 'D'], 0x00C), (['R', 'A', 'T', 'E'], 0x010),
   (['C', 'A', 'P', 'A', 'C', 'I', 'T', 'Y'], 0x014), (['S', 'U', 'F', 'F', 'I', 'X'], 0x018),
   (['I', 'N', 'L', 'E', 'N'], 0x01C), (['O', 'U', 'T', 'L', 'E', 'N'], 0x020),
   (['I', 'B', 'U', 'F', 'S', 'I', 'Z', 'E'], 0x024), (['O', 'B', 'U', 'F', 'S', 'I', 'Z', 'E'], 0x028)]

/-- The buffer names and their bases (R127). -/
def bufferNames : List (List Char × Nat) :=
  [(['B', 'L', 'O', 'C', 'K'], 0x100), (['K', 'S', 'C', 'H', 'E', 'D'], 0x200), (['K', 'S', 'T', 'A', 'T', 'E'], 0x400),
   (['I', 'B', 'U', 'F'], 0x10000), (['O', 'B', 'U', 'F'], 0x20000)]

/-- What a list gives under a name. -/
def lookupName {α : Type} (name : List Char) : List (List Char × α) → Option α
  | [] => none
  | (n, a) :: rest => if n = name then some a else lookupName name rest

/-- The characters before the first `+` and those after it, if there is one. -/
def splitPlus : List Char → Option (List Char × List Char)
  | [] => none
  | c :: cs => if c = '+' then some ([], cs) else (splitPlus cs).map fun p => (c :: p.1, p.2)

/-- An offset: a number, a register name, or `<buffer>+i` (R127). -/
def parseOffset (cs : List Char) : Option Word :=
  match splitPlus cs with
  | some (name, i) =>
    (lookupName name bufferNames).bind fun base =>
      (parseNumber i).bind fun k => if base + k < 2 ^ 32 then some (BitVec.ofNat 32 (base + k)) else none
  | none =>
    match lookupName cs registerNames with
    | some off => some (BitVec.ofNat 32 off)
    | none     => parseWord cs

/-! Statements. -/

/-- The mnemonics of the commands (R122). -/
def mnemonics : List (List Char × Instr) :=
  [(['E', 'X', 'P', 'A', 'N', 'D', 'K', 'E', 'Y'], .expandkey), (['E', 'N', 'C', 'R', 'Y', 'P', 'T'], .encrypt),
   (['D', 'E', 'C', 'R', 'Y', 'P', 'T'], .decrypt), (['K', 'E', 'C', 'C', 'A', 'K', 'F'], .keccakf),
   (['K', 'E', 'C', 'C', 'A', 'K'], .keccak), (['S', 'H', 'A', 'K', 'E', '1', '2', '8'], .shake128),
   (['S', 'H', 'A', 'K', 'E', '2', '5', '6'], .shake256), (['S', 'H', 'A', '3', '_', '2', '2', '4'], .sha3_224),
   (['S', 'H', 'A', '3', '_', '2', '5', '6'], .sha3_256), (['S', 'H', 'A', '3', '_', '3', '8', '4'], .sha3_384),
   (['S', 'H', 'A', '3', '_', '5', '1', '2'], .sha3_512)]

/-- Sixteen bytes as a block. -/
def blockOf (bs : List Byte) : Option Block :=
  if h : bs.length = 16 then some ⟨bs.toArray, by simp [h]⟩ else none

/-- The statement whose name and operands are the given words of a line (R127, R128); none for any other line. -/
def parseStatement : List (List Char) → Option Statement
  | [['W', 'R', '3', '2'], off, v] => (parseOffset off).bind fun o => (parseWord v).map (.wr32 o)
  | [['W', 'R', '8'], off, v] => (parseOffset off).bind fun o => (parseByte v).map (.wr8 o)
  | [['R', 'D', '3', '2'], off] => (parseOffset off).map .rd32
  | [['R', 'D', '8'], off] => (parseOffset off).map .rd8
  | [['C', 'M', 'D', 'W'], v] => (parseWord v).map .cmdw
  | [['S', 'E', 'T', 'K', 'E', 'Y'], k] => (parseWord k).map .setkey
  | ['L', 'O', 'A', 'D', 'B', 'L', 'K'] :: bytes => (parseAll parseHexPair bytes).bind fun bs => (blockOf bs).map .loadblk
  | [['S', 'P', 'O', 'N', 'G', 'E'], r, c, s] =>
    (parseWord r).bind fun rt => (parseWord c).bind fun cp => (parseWord s).map (.sponge rt cp)
  | [['L', 'E', 'N', 'S'], i, o] => (parseWord i).bind fun n => (parseWord o).map (.lens n)
  | ['L', 'O', 'A', 'D', 'M', 'S', 'G'] :: bytes => (parseAll parseHexPair bytes).map .loadmsg
  | [['F', 'I', 'L', 'L', 'O', 'U', 'T'], n, b] => (parseNumber n).bind fun k => (parseByte b).map (.fillout k)
  | [name] => (lookupName name mnemonics).map .command
  | _ => none

/-- A line without its comment, which `;` starts (R127). -/
def withoutComment : List Char → List Char
  | [] => []
  | c :: cs => if c = ';' then [] else c :: withoutComment cs

/-- The words of a line, which blanks and commas part; `acc` is the word begun, last character first. -/
def wordsFrom (acc : List Char) : List Char → List (List Char)
  | [] => if acc = [] then [] else [acc.reverse]
  | c :: cs =>
    if c = ' ' ∨ c = ',' ∨ c = '\t' then (if acc = [] then wordsFrom [] cs else acc.reverse :: wordsFrom [] cs)
    else wordsFrom (c :: acc) cs

/-- The statement of a line: `some none` for a line with no word, none for a line that is no statement (log entry 15). -/
def parseLine (line : List Char) : Option (Option Statement) :=
  match wordsFrom [] (withoutComment line) with
  | [] => some none
  | ws => (parseStatement ws).map some

/-- The statements of a host program, one a line (R127); none where a line is no statement. -/
def parseProgram : List (List Char) → Option (List Statement)
  | [] => some []
  | line :: rest =>
    match parseLine line, parseProgram rest with
    | some none, some prog     => some prog
    | some (some st), some prog => some (st :: prog)
    | _, _                     => none

end Sys2Proof.Machine
end

