-- ==== Sys2Proof/Tests/Slice0.lean ====
section
/-! SUPPORT. The model's own tests. The expected values are those of 95_test_vectors.md and of the tables of the rules named,
under the configuration VCFG. The second half holds, for each obligation with hypotheses, a case that meets them. -/

namespace Sys2Proof.Tests

-- One theorem at a time, until this namespace ends: several kernel evaluations of KeccakF side by side need more memory than
-- the check allows.
set_option Elab.async false

open Sys2Proof.Machine Sys2Proof.Reference

/-! Helpers. -/

/-- The outcome is a next state with the property `p`. -/
def nextWith (p : State → Bool) : Host.Outcome State Fault Refusal → Bool
  | .next s    => p s
  | .fault _   => false
  | .refused _ => false

/-- The outcome is the fault `f`. -/
def faultsWith (f : Fault) : Host.Outcome State Fault Refusal → Bool
  | .next _    => false
  | .fault g   => decide (g = f)
  | .refused _ => false

/-- `n` bytes written as one hexadecimal number, the first pair byte 0. -/
def hexBytes (n v : Nat) : List Byte := (List.range n).map fun k => BitVec.ofNat 8 (v / 256 ^ (n - 1 - k))

/-- Sixteen bytes written as one hexadecimal number, the first pair byte 0. -/
def hexBlock (v : Nat) : Block := Vector.ofFn fun k : Fin 16 => BitVec.ofNat 8 (v / 256 ^ (15 - k.val))

/-- The first `n` bytes of OBUF that have been written. -/
def output (s : State) (n : Nat) : List Byte := (List.range n).filterMap (Memory.read s.obuf)

/-- The state after reset with the message "abc" in IBUF. -/
def abc : State := { State.reset with ibuf := [(0, 0x61), (1, 0x62), (2, 0x63)], inlen := 3 }

/-- The state after reset with a sponge's parameters set. -/
def params (r c : Word) : State := { State.reset with rate := r, capacity := c, inlen := 257, outlen := 257 }

/-- The step that performs one host access from the state after reset leaves one bus error with this reason. -/
def busErrorOf (kind : AccessKind) (off : Word) (n : Nat) (reason : BusReason) : Bool :=
  nextWith (fun s => decide (s.busErrors = [⟨0, kind, off, n, reason⟩] ∧ s.returned = [] ∧ s.cmd = 0))
    (step (State.reset.offer (.access ⟨0, kind, off, n, 0⟩)))

/-- The step that reads a register or a word from `s` returns `v`. -/
def reads (s : State) (off v : Word) : Bool :=
  nextWith (fun t => decide (t.returned = [⟨0, off, 4, v⟩])) (step (s.offer (.access (read32 0 off))))

/-! Well-formedness: what each check refuses, and what it lets through. -/

theorem test_params_ibuf_too_large : ¬Params.WellFormed { Config.vcfg with ibufBytes := 65537 } := by decide
theorem test_params_obuf_too_small : ¬Params.WellFormed { Config.vcfg with obufBytes := 63 } := by decide
theorem test_params_obuf_too_large : ¬Params.WellFormed { Config.vcfg with obufBytes := 65537 } := by decide
theorem test_params_no_host : ¬Params.WellFormed { Config.vcfg with numHosts := 0 } := by decide
theorem test_params_limits :
    Params.WellFormed { Config.vcfg with ibufBytes := 0, obufBytes := 64 } ∧
    Params.WellFormed { Config.vcfg with ibufBytes := 65536, obufBytes := 65536 } := by decide
theorem test_access_no_such_host : ¬Access.WellFormed Config.vcfg ⟨1, .read, 0x004, 4, 0⟩ := by decide
theorem test_access_byte_too_wide : ¬Access.WellFormed Config.vcfg ⟨0, .write, 0x100, 1, 0x100⟩ := by decide
theorem test_input_ill_formed :
    Input.wellFormed Config.vcfg (.access ⟨1, .read, 0x004, 4, 0⟩) = false ∧
    Input.wellFormed Config.vcfg (.access ⟨0, .write, 0x100, 1, 0xFF⟩) = true ∧
    Input.wellFormed Config.vcfg .reset = true := by decide
theorem test_memory_out_of_order : ¬Memory.wf [(1, 0x00), (0, 0x00)] ∧ ¬Memory.wf [(1, 0x00), (1, 0x01)] := by decide
theorem test_memory_out_of_bounds : ¬Memory.Within [(256, 0x00)] 256 ∧ Memory.Within [(255, 0x00)] 256 := by decide
theorem test_inputs_ill_formed :
    ¬State.InputsWellFormed { State.reset with inputs := [.access ⟨7, .read, 0x004, 4, 0⟩] } := by decide

/-! Decoding (30_encoding.md R120 to R124): RSVD in bits 31:8, OPCODE in bits 7:0, each word written out in binary. -/

theorem test_decode_aes :
    decode 0b00000000_00000000_00000000_00000001 = .ok .expandkey ∧
    decode 0b00000000_00000000_00000000_00000010 = .ok .encrypt ∧
    decode 0b00000000_00000000_00000000_00000011 = .ok .decrypt := ⟨rfl, rfl, rfl⟩
theorem test_decode_keccak :
    decode 0b00000000_00000000_00000000_00010000 = .ok .keccakf ∧
    decode 0b00000000_00000000_00000000_00010001 = .ok .keccak := ⟨rfl, rfl⟩
theorem test_decode_shake :
    decode 0b00000000_00000000_00000000_00100000 = .ok .shake128 ∧
    decode 0b00000000_00000000_00000000_00100001 = .ok .shake256 := ⟨rfl, rfl⟩
theorem test_decode_sha3 :
    decode 0b00000000_00000000_00000000_00100010 = .ok .sha3_224 ∧
    decode 0b00000000_00000000_00000000_00100011 = .ok .sha3_256 ∧
    decode 0b00000000_00000000_00000000_00100100 = .ok .sha3_384 ∧
    decode 0b00000000_00000000_00000000_00100101 = .ok .sha3_512 := ⟨rfl, rfl, rfl, rfl⟩
theorem test_decode_reserved :
    decode 0x00000100 = .error .reserved ∧ decode 0x00000102 = .error .reserved ∧
    decode 0x80000023 = .error .reserved ∧ decode 0x00010010 = .error .reserved := ⟨rfl, rfl, rfl, rfl⟩
theorem test_decode_undefined :
    ∀ v ∈ ([0x00, 0x04, 0x0F, 0x12, 0x1F, 0x26, 0xFF] : List Word), decode v = .error .undefinedOpcode := by
  simp only [List.forall_mem_cons]
  exact ⟨rfl, rfl, rfl, rfl, rfl, rfl, rfl, by simp⟩
theorem test_decodeTableWord :
    decodeTableWord 32 0x25 = some .sha3_512 ∧ decodeTableWord 8 0x02 = some .encrypt ∧
    decodeTableWord 32 0x102 = none ∧ decodeTableWord 40 0x02 = none := by decide
theorem test_fetch_word_runs :
    nextWith (fun s => decide (statusWord s = 0x00000100 ∧ s.cmd = 0x01)) (step (State.reset.withFetchWord 32 0x01)) = true := by
  decide +kernel

/-! AES vectors. -/

/-- V-GF-1, V-GF-2. -/
theorem test_doubling :
    xtime 0x8E = 0x07 ∧ xtime 0xAE = 0x47 ∧ xtime 0x1B = 0x36 ∧ x4 0x40 = 0x1B ∧ x4 0x80 = 0x36 ∧ x4 0xFF = 0xD1 := by decide

/-- V-AES-P1 to V-AES-P3. -/
theorem test_passes :
    (List.finRange 16).map (fun i => (sh i).val) = [0, 5, 10, 15, 4, 9, 14, 3, 8, 13, 2, 7, 12, 1, 6, 11] ∧
    fwdPass (hexBlock 0x000102030405060708090a0b0c0d0e0f) (Vector.replicate 16 0) =
      hexBlock 0x636b6776f201ab7b30d777c5fe7c6f2b ∧
    invPass (hexBlock 0x000102030405060708090a0b0c0d0e0f) (Vector.replicate 16 0) =
      hexBlock 0x52f3a3383009d79ebf366afb8140a5d5 := by decide +kernel

/-- The first row of V-AES-P4, in every column. -/
theorem test_column_mixing :
    let s : Block := hexBlock 0xdb135345db135345db135345db135345
    mixColumns s = hexBlock 0x8e4da1bc8e4da1bc8e4da1bc8e4da1bc ∧
    invPre s = hexBlock 0xcd504506cd504506cd504506cd504506 ∧
    invMixColumns s = hexBlock 0x32a41d5532a41d5532a41d5532a41d55 := by decide +kernel

/-- V-KS-2: round keys 1 and 10 of EXPANDKEY with KEYIDX = 1. -/
theorem test_expandkey :
    nextWith (fun s => decide (s.keyused = 1 ∧ statusWord s = 0x00000100 ∧
      roundKey s.ksched 1 = hexBlock 0xd6aa74fdd2af72fadaa678f1d6ab76fe ∧
      roundKey s.ksched 10 = hexBlock 0x13111d7fe3944a17f307a78b4d2b30c5))
      (exec .expandkey { State.reset with keyidx := 1 }) = true := by decide +kernel

/-- V-KEY-1 and V-KS-1: an index with no key. -/
theorem test_expandkey_fallback :
    nextWith (fun s => decide (s.keyused = 0 ∧ statusWord s = 0x00000100 ∧
      roundKey s.ksched 1 = hexBlock 0xa0fafe1788542cb123a339392a6c7605 ∧
      roundKey s.ksched 10 = hexBlock 0xd014f9a8c9ee2589e13f0cc8b6630ca6))
      (exec .expandkey { State.reset with keyidx := 7 }) = true := by decide +kernel

/-- V-AES-1, FIPS-197 Appendix C.1. -/
theorem test_encrypt :
    nextWith (fun s => decide (statusWord s = 0x00000200 ∧
      s.block = hexBlock 0x69c4e0d86a7b0430d8cdb78070b4c55a))
      (exec .encrypt { State.reset with keyidx := 1, block := hexBlock 0x00112233445566778899aabbccddeeff }) = true := by
  decide +kernel

/-- V-KEY-3, FIPS-197 Appendix B under the default key. -/
theorem test_encrypt_fallback :
    nextWith (fun s => decide (statusWord s = 0x00000200 ∧
      s.block = hexBlock 0x3925841d02dc09fbdc118597196a0b32))
      (exec .encrypt { State.reset with keyidx := 7, block := hexBlock 0x3243f6a8885a308d313198a2e0370734 }) = true := by
  decide +kernel

/-- V-AES-2. -/
theorem test_decrypt :
    nextWith (fun s => decide (statusWord s = 0x00000300 ∧
      s.block = hexBlock 0x00112233445566778899aabbccddeeff))
      (exec .decrypt { State.reset with keyidx := 1, block := hexBlock 0x69c4e0d86a7b0430d8cdb78070b4c55a }) = true := by
  decide +kernel

/-- V-AES-6. -/
theorem test_decrypt_zero_block :
    nextWith (fun s => decide (statusWord s = 0x00000300 ∧
      s.block = hexBlock 0x7b1d29a16cf8ccab84f0b8a598e42fa6))
      (exec .decrypt { State.reset with keyidx := 1, block := hexBlock 0x00000000000000000000000000000000 }) = true := by
  decide +kernel

/-! The permutation, step by step. -/

/-- The array with lane (u, v) = w and every other lane 0. -/
def oneLane (u v : Fin 5) (w : Lane) : Lanes := setLane (Vector.replicate 25 0) u v w

/-- V-KP-1. -/
theorem test_theta :
    theta (oneLane 0 0 1) = ofLanes (fun x y => if x = 1 then 1 else if x = 4 then 2 else if x = 0 ∧ y = 0 then 1 else 0) := by
  decide +kernel

/-- V-KP-2. -/
theorem test_rhoPi :
    rhoPi (oneLane 1 0 1) = oneLane 0 2 2 ∧ rhoPi (oneLane 0 1 1) = oneLane 1 3 0x0000001000000000 ∧
    rhoPi (oneLane 0 0 5) = oneLane 0 0 5 := by decide +kernel

/-- V-KP-3. -/
theorem test_chi :
    chi (oneLane 0 0 (BitVec.allOnes 64)) =
      setLane (oneLane 0 0 (BitVec.allOnes 64)) 3 0 (BitVec.allOnes 64) ∧
    chi (setLane (oneLane 1 0 (BitVec.allOnes 64)) 2 0 (BitVec.allOnes 64)) =
      setLane (setLane (oneLane 1 0 (BitVec.allOnes 64)) 2 0 (BitVec.allOnes 64)) 4 0 (BitVec.allOnes 64) := by decide +kernel

/-- V-KP-4. -/
theorem test_lfsr :
    (List.range 9).map (fun n => Nat.iterate (fun r => (lfsrStep r).2) n 0x01) =
      [0x01, 0x02, 0x04, 0x08, 0x10, 0x20, 0x40, 0x80, 0x71] ∧
    roundConstant 0x01 = (0x0000000000000001, 0x80) ∧ (roundConstant 0x80).1 = 0x0000000000008082 := by decide +kernel

/-- V-KP-6. -/
theorem test_round_on_zero : keccakRound (Vector.replicate 25 0) 1 = oneLane 0 0 1 := by decide +kernel

/-! KECCAKF and the sponge commands. -/

/-- V-KF-1, lanes (0, 0), (1, 0), (0, 1) and (4, 4). -/
theorem test_keccakf :
    nextWith (fun s => decide (statusWord s = 0x00001000 ∧ lane (lanesOf s.kstate) 0 0 = 0xF1258F7940E1DDE7 ∧
      lane (lanesOf s.kstate) 1 0 = 0x84D5CCF933C0478A ∧ lane (lanesOf s.kstate) 0 1 = 0xFF97A42D7F8E6FD4 ∧
      lane (lanesOf s.kstate) 4 4 = 0xEAF1FF7B5CECA249))
      (exec .keccakf State.reset) = true := by decide +kernel

/-- V-SP-14: the pair (1000, 600) is accepted. -/
theorem test_keccak :
    nextWith (fun s => decide (statusWord s = 0x00001100 ∧ s.obuf.length = 16 ∧ output s 16 = hexBytes 16
      0xc9bf27b0472b18c8dcfdca10b1034fa5))
      (exec .keccak { abc with rate := 1000, capacity := 600, suffix := 0x06, outlen := 16 }) = true := by decide +kernel

/-- V-SP-3. -/
theorem test_shake128 :
    nextWith (fun s => decide (statusWord s = 0x00002000 ∧ s.obuf.length = 32 ∧ output s 32 = hexBytes 32
      0x7f9c2ba4e88f827d616045507605853ed73b8093f6efbc88eb1a6eacfa66ef26))
      (exec .shake128 { State.reset with outlen := 32 }) = true := by decide +kernel

/-- V-SP-4. -/
theorem test_shake256 :
    nextWith (fun s => decide (statusWord s = 0x00002100 ∧ s.obuf.length = 32 ∧ output s 32 = hexBytes 32
      0x46b9dd2b0ba88d13233b3feb743eeb243fcd52ea62b81b82b50c27646ed5762f))
      (exec .shake256 { State.reset with outlen := 32 }) = true := by decide +kernel

/-- V-SP-5, with OUTLEN ignored. -/
theorem test_sha3_224 :
    nextWith (fun s => decide (statusWord s = 0x00002200 ∧ s.obuf.length = 28 ∧ output s 28 = hexBytes 28
      0x6b4e03423667dbb73b6e15454f0eb1abd4597f9a1b078e3f5b5a6bc7))
      (exec .sha3_224 { State.reset with outlen := 0xFFFFFFFF }) = true := by decide +kernel

/-- V-SP-2, the digest of "abc". -/
theorem test_sha3_256 :
    nextWith (fun s => decide (statusWord s = 0x00002300 ∧ s.obuf.length = 32 ∧ output s 32 = hexBytes 32
      0x3a985da74fe225b2045c172d6bd390bd855f086e3e9d525b46bfe24511431532))
      (exec .sha3_256 abc) = true := by decide +kernel

/-- V-SP-6. -/
theorem test_sha3_384 :
    nextWith (fun s => decide (statusWord s = 0x00002400 ∧ s.obuf.length = 48 ∧ output s 48 = hexBytes 48
      0x0c63a75b845e4f7d01107d852e4c2485c51a50aaaa94fc61995e71bbee983a2ac3713831264adb47fb6bd1e058d5f004))
      (exec .sha3_384 State.reset) = true := by decide +kernel

/-- V-SP-7. -/
theorem test_sha3_512 :
    nextWith (fun s => decide (statusWord s = 0x00002500 ∧ s.obuf.length = 64 ∧ output s 64 = hexBytes 64
      0xa69f73cca23a9ac5c8b567dc185a756e97c982164fe25859e0d1dcc1475c80a615b2123af1f5f94c11e3e9402c3ac558f500199d95b6d3e301758586281dcd26))
      (exec .sha3_512 State.reset) = true := by decide +kernel

/-! The checks of the sponge commands and the other failures, in their order. -/

/-- The command word leaves this STATUS, CMD as written, and no byte of OBUF. -/
def fails (s : State) (v status : Word) : Bool :=
  nextWith (fun t => decide (statusWord t = status ∧ t.cmd = v ∧ t.obuf = [])) (step (s.offer (.access (commandWrite v))))

/-- V-ERR-1, V-ERR-20, V-ERR-21, V-ERR-13, V-ERR-14, V-ERR-19. -/
theorem test_bad_words :
    fails abc 0x00000100 0x00000006 = true ∧ fails abc 0x00000102 0x00000206 = true ∧ fails abc 0x80000023 0x00002306 = true ∧
    fails abc 0x00000000 0x00000005 = true ∧ fails abc 0x00000004 0x00000405 = true ∧ fails abc 0x000000FF 0x0000FF05 = true := by
  decide

/-- V-ERR-4, V-ERR-3, V-ERR-7, V-ERR-8: the parameters first. -/
theorem test_keccak_bad_params :
    fails (params 1000 608) 0x11 0x00001101 = true ∧ fails (params 1004 596) 0x11 0x00001101 = true ∧
    fails (params 0 0) 0x11 0x00001101 = true ∧ fails (params 1608 0xFFFFFFF8) 0x11 0x00001101 = true := by decide

/-- V-ERR-6, V-ERR-11, V-ERR-9, V-ERR-10: then the rate, the input length and the output length. -/
theorem test_sponge_bad_lengths :
    fails (params 0 1600) 0x11 0x00001102 = true ∧ fails (params 1088 512) 0x11 0x00001103 = true ∧
    fails (params 0 0) 0x23 0x00002303 = true ∧
    fails { State.reset with outlen := 257 } 0x20 0x00002004 = true := by decide

/-- V-BUS-22: the message has an unwritten byte. -/
theorem test_unwritten_message :
    faultsWith (.unwritten 0 0x000 3) (step ({ abc with inlen := 4 }.offer (.access (commandWrite 0x23)))) = true := by decide

/-! Host accesses. -/

/-- V-BUS-1, V-BUS-2, V-BUS-17. -/
theorem test_reset_reads :
    reads State.reset 0x004 0x000000FF = true ∧ reads State.reset 0x024 0x00000100 = true ∧
    reads State.reset 0x028 0x00000100 = true ∧ reads State.reset 0x4C4 0x00000000 = true := by decide +kernel

/-- V-KS-2 as host reads. -/
theorem test_read_ksched :
    let s : State := { State.reset with ksched := expandKey (hexBlock 0x000102030405060708090a0b0c0d0e0f) }
    reads s 0x2A0 0x7F1D1113 = true ∧ reads s 0x210 0xFD74AAD6 = true := by decide +kernel

/-- V-BUS-3 to V-BUS-9. -/
theorem test_bus_errors_registers :
    busErrorOf .write 0x004 4 .readonly = true ∧ busErrorOf .write 0x004 1 .width = true ∧
    busErrorOf .write 0x000 1 .width = true ∧ busErrorOf .read 0x102 4 .misaligned = true ∧
    busErrorOf .write 0x006 4 .misaligned = true ∧ busErrorOf .read 0x100 2 .width = true ∧
    busErrorOf .read 0x02C 4 .unmapped = true := by decide

/-- V-BUS-10 to V-BUS-15, V-BUS-21. -/
theorem test_bus_errors_buffers :
    busErrorOf .read 0x110 4 .unmapped = true ∧ busErrorOf .read 0x2B0 1 .unmapped = true ∧
    busErrorOf .read 0x4C8 4 .unmapped = true ∧ busErrorOf .write 0x200 1 .readonly = true ∧
    busErrorOf .write 0x00C 4 .readonly = true ∧ busErrorOf .write 0x10100 1 .unmapped = true ∧
    busErrorOf .read 0x20002 4 .misaligned = true := by decide

/-- V-BUS-16: an access that straddles the end of IBUF. -/
theorem test_bus_error_straddle :
    checkAccess { Config.vcfg with ibufBytes := 254 } .read 0x100FC 4 = .error .unmapped := rfl

/-- V-BUS-19, V-BUS-20. -/
theorem test_unwritten_reads :
    faultsWith (.unwritten 0 0x20000 1) (step (State.reset.offer (.access (read8 0 0x20000)))) = true ∧
    faultsWith (.unwritten 0 0x10000 4)
      (step ({ State.reset with ibuf := [(0, 0x61)] }.offer (.access (read32 0 0x10000)))) = true := by decide

/-- V-BUS-18: SUFFIX keeps its low byte. -/
theorem test_suffix_write :
    nextWith (fun s => decide (s.suffix = 0x06 ∧ suffixWord s = 0x00000006))
      (step (State.reset.offer (.access (write32 0 0x018 0x12345606)))) = true := by decide

/-- The accesses of P1's first lines (30_encoding.md R128). -/
theorem test_assemble :
    assemble 0 [.setkey 1, .loadblk (hexBlock 0x00112233445566778899aabbccddeeff), .command .encrypt] =
      [.access ⟨0, .write, 0x008, 4, 0x00000001⟩, .access ⟨0, .write, 0x100, 4, 0x33221100⟩,
       .access ⟨0, .write, 0x104, 4, 0x77665544⟩, .access ⟨0, .write, 0x108, 4, 0xBBAA9988⟩,
       .access ⟨0, .write, 0x10C, 4, 0xFFEEDDCC⟩, .access ⟨0, .write, 0x000, 4, 0x00000002⟩] := by decide

/-- The text of some lines of programs P1, P2 and P4. -/
theorem test_parse :
    parseProgram ["SPONGE 1000, 608, 6              ; (Write, 0x010, 4, 1000)".toList, "   ; a comment".toList,
        "LOADMSG 61 62 63".toList, "FILLOUT 16, 0xAA".toList, "SHA3_256".toList, "RD32 OBUF+28".toList] =
      some [.sponge 1000 608 6, .loadmsg [0x61, 0x62, 0x63], .fillout 16 0xAA, .command .sha3_256, .rd32 0x2001C] ∧
    parseProgram ["WR8 CMD, 256".toList] = none := by decide +kernel

/-- `LOADMSG` and `FILLOUT` write a byte at a time (30_encoding.md R128, program P2). -/
theorem test_assemble_bytes :
    assemble 0 [.loadmsg [0x61, 0x62], .fillout 1 0xAA] =
      [.access ⟨0, .write, 0x10000, 1, 0x61⟩, .access ⟨0, .write, 0x10001, 1, 0x62⟩,
       .access ⟨0, .write, 0x20000, 1, 0xAA⟩] := by decide

/-! Cases that meet the hypotheses of the obligations, clause by clause. -/

theorem witness_ReservedAndUndefinedWordsWriteStatusOnly :
    (0x00000100 : Word).extractLsb' 8 24 ≠ 0 ∧ (0x80000002 : Word).extractLsb' 8 24 ≠ 0 ∧
    ∀ n ∈ [0x00, 0x04, 0x0F, 0x12, 0x1F, 0x26, 0xFF],
      (BitVec.ofNat 32 n).toNat = 0x00 ∨ (0x04 ≤ (BitVec.ofNat 32 n).toNat ∧ (BitVec.ofNat 32 n).toNat ≤ 0x0F) ∨
      (0x12 ≤ (BitVec.ofNat 32 n).toNat ∧ (BitVec.ofNat 32 n).toNat ≤ 0x1F) ∨
      (0x26 ≤ (BitVec.ofNat 32 n).toNat ∧ (BitVec.ofNat 32 n).toNat ≤ 0xFF) := by decide

theorem witness_StepRunsDecodedCommand :
    (State.reset.offer (.access ⟨0, .write, 0x000, 4, 0x10⟩)).inputs = .access ⟨0, .write, 0x000, 4, 0x10⟩ :: [] ∧
    0 < State.reset.params.numHosts ∧ decode 0x10 = .ok .keccakf := by decide

theorem witness_FirstFailureIsReported :
    firstFailure 0x00000100 State.reset = some .errReserved ∧ firstFailure 0x00000004 State.reset = some .errOpcode ∧
    firstFailure 0x00000011 (params 1608 0xFFFFFFF8) = some .errParams ∧
    firstFailure 0x00000011 (params 0 1600) = some .errRateZero ∧
    firstFailure 0x00000011 (params 1600 0) = some .errInlen ∧
    firstFailure 0x00000011 { params 1600 0 with inlen := 256 } = some .errOutlen := by decide

theorem witness_PerformedWordWritesStatus :
    perform 0x00000004 State.reset = .next { State.reset with result := .errOpcode, lastop := 0x04 } ∧
    ∃ t, perform 0x00000010 State.reset = .next t := ⟨rfl, _, rfl⟩

theorem witness_CommandsWriteOnlyTheirState :
    (∃ t, exec .expandkey abc = .next t) ∧ (∃ t, exec .encrypt abc = .next t) ∧ (∃ t, exec .decrypt abc = .next t) ∧
    (∃ t, exec .keccakf abc = .next t) ∧ (∃ t, exec .keccak { abc with rate := 1600 } = .next t) ∧
    (∃ t, exec .shake128 abc = .next t) ∧ (∃ t, exec .shake256 abc = .next t) ∧ (∃ t, exec .sha3_224 abc = .next t) ∧
    (∃ t, exec .sha3_256 abc = .next t) ∧ (∃ t, exec .sha3_384 abc = .next t) ∧ (∃ t, exec .sha3_512 abc = .next t) :=
  ⟨⟨_, rfl⟩, ⟨_, rfl⟩, ⟨_, rfl⟩, ⟨_, rfl⟩, ⟨_, rfl⟩, ⟨_, rfl⟩, ⟨_, rfl⟩, ⟨_, rfl⟩, ⟨_, rfl⟩, ⟨_, rfl⟩, ⟨_, rfl⟩⟩

theorem witness_CommandsWriteOnlyTheirState_failing :
    firstFailure (encode .keccak) (params 1088 512) = some .errInlen ∧ ∃ t, exec .keccak (params 1088 512) = .next t :=
  ⟨by decide, _, rfl⟩

theorem witness_CommandsWriteOnlyTheirState_output :
    spongeOperands (encode .sha3_256) abc = some ⟨1088, 512, 0x06, 3, 32⟩ ∧ 32 ≤ 32 ∧
    (∃ t, exec .sha3_256 abc = .next t) ∧
    spongeOperands (encode .shake128) abc = some ⟨1344, 256, 0x1F, 3, 0⟩ ∧ 0 ≤ 0 ∧ ∃ t, exec .shake128 abc = .next t :=
  ⟨rfl, by decide, ⟨_, rfl⟩, rfl, by decide, _, rfl⟩

theorem witness_RepeatedCommandIsIdempotent :
    Instr.sha3_256 ≠ .encrypt ∧ Instr.sha3_256 ≠ .decrypt ∧ Instr.sha3_256 ≠ .keccakf ∧ ∃ t, exec .sha3_256 abc = .next t :=
  ⟨by decide, by decide, by decide, _, rfl⟩

theorem witness_KeyScheduleFollowsRecurrence :
    (1 ≤ 9 ∧ 9 ≤ 9) ∧ (4 ≤ 4 ∧ 4 ≤ 43 ∧ 0 < 4 ∧ 4 % 4 = 0) ∧ (4 ≤ 43 ∧ 43 ≤ 43 ∧ 3 < 4 ∧ 43 % 4 ≠ 0) := by decide

theorem witness_UnknownKeyIndexFallsBack :
    (resolveKey Config.vcfg 7).2 = (resolveKey Config.vcfg 0xFFFFFFFF).2 := by decide

theorem witness_DecryptRestoresEncryptedBlock :
    ∃ t t' : State, exec .encrypt { abc with keyidx := 7 } = .next t ∧ t' = { t with suffix := 0x01 } ∧
      t'.params = t.params ∧ t'.keyidx = t.keyidx ∧ t'.block = t.block := ⟨_, _, rfl, rfl, rfl, rfl, rfl⟩

theorem witness_KeccakChecksParametersExactly :
    ¬((params 1608 0xFFFFFFF8).rate.toNat + (params 1608 0xFFFFFFF8).capacity.toNat = 1600 ∧
      (params 1608 0xFFFFFFF8).rate.toNat % 8 = 0) ∧
    (params 0 1600).rate = 0 ∧ (params 0 1600).capacity = 1600 := by decide

theorem witness_AbsorbTakesRateChunks :
    (1 ≤ 1 ∧ 1 ≤ [(0x61 : Byte)].length) ∧ (1 ≤ 2 ∧ [(0x61 : Byte)].length < 2) := by decide

theorem witness_PadJoinsSuffixAndTopBit :
    ((0x81 : Byte).getLsbD 7 = true ∧ 135 = 136 - 1) ∧ ¬((0x81 : Byte).getLsbD 7 = true ∧ 134 = 136 - 1) ∧
    ¬((0x06 : Byte).getLsbD 7 = true ∧ 135 = 136 - 1) := by decide

theorem witness_SqueezeCopiesRateChunks : (1 ≤ 1 ∧ 1 ≤ 200 ∧ 0 ≤ 1) ∧ (1 ≤ 200 ∧ 200 ≤ 200 ∧ 200 < 201) := by decide

theorem witness_ShorterOutputIsPrefix : (8 ≤ 8 ∧ 8 ≤ 1600 ∧ 0 ≤ 4) ∧ (8 ≤ 1600 ∧ 1600 ≤ 1600 ∧ 4 ≤ 4) := by decide

/-- A state ready for KECCAK, at the limit of OUTLEN. -/
def ready : State := { abc with rate := 1000, capacity := 600, suffix := 0x06, outlen := 256 }

/-- The message bytes of `abc` have been written. -/
theorem abc_written : ∀ k, k < 3 → Memory.read abc.ibuf k ≠ none := by decide

theorem witness_KeccakHashesMessage :
    ready.rate.toNat + ready.capacity.toNat = 1600 ∧ ready.rate.toNat % 8 = 0 ∧ ready.rate ≠ 0 ∧
    ready.inlen.toNat ≤ ready.params.ibufBytes ∧ ready.outlen.toNat ≤ ready.params.obufBytes ∧
    (∀ k, k < ready.inlen.toNat → Memory.read ready.ibuf k ≠ none) :=
  ⟨by decide, by decide, by decide, by decide, by decide, abc_written⟩

theorem witness_ShakeCommandsHashMessage :
    ready.inlen.toNat ≤ ready.params.ibufBytes ∧ ready.outlen.toNat ≤ ready.params.obufBytes ∧
    (∀ k, k < ready.inlen.toNat → Memory.read ready.ibuf k ≠ none) := ⟨by decide, by decide, abc_written⟩

theorem witness_Sha3CommandsHashMessage :
    abc.params.WellFormed ∧ abc.inlen.toNat ≤ abc.params.ibufBytes ∧
    (∀ k, k < abc.inlen.toNat → Memory.read abc.ibuf k ≠ none) := ⟨by decide, by decide, abc_written⟩

/-- `abc` with one message byte more than has been written. -/
def short : State := { abc with inlen := 4, rate := 1600, outlen := 0 }

theorem witness_WrappersAreKeccakWithFixedParameters : ∃ t, exec .keccak ready = .next t := ⟨_, rfl⟩

theorem witness_UnwrittenMessageByteFaults :
    spongeOperands (encode .keccak) short = some ⟨1600, 0, 0x00, 4, 0⟩ ∧ firstFailure (encode .keccak) short = none ∧
    3 < 4 ∧ Memory.read short.ibuf 3 = none ∧ (∀ j, j < 3 → Memory.read short.ibuf j ≠ none) :=
  ⟨rfl, by decide, by decide, by decide, by decide⟩

/-- `abc` with other operands and with bytes in OBUF. -/
def other : State := { abc with rate := 1, suffix := 0x80, obuf := [(0, 0xAA), (40, 0xBB)], keyidx := 3 }

theorem witness_DigestDependsOnMessageOnly :
    (Instr.sha3_512, 64) ∈ [(Instr.sha3_224, 28), (Instr.sha3_256, 32), (Instr.sha3_384, 48), (Instr.sha3_512, 64)] ∧
    abc.inlen = other.inlen ∧ (∀ k, k < abc.inlen.toNat → Memory.read abc.ibuf k = Memory.read other.ibuf k) ∧
    ∃ t₁ t₂ : State, exec .sha3_512 abc = .next t₁ ∧ exec .sha3_512 other = .next t₂ ∧ t₁.result = .ok ∧ t₂.result = .ok :=
  ⟨by decide, rfl, fun _ _ => rfl, _, _, rfl, rfl, rfl, rfl⟩

theorem witness_ZeroLengthSuccessIsDistinct :
    spongeOperands (encode .shake128) State.reset = some ⟨1344, 256, 0x1F, 0, 0⟩ ∧
    firstFailure (encode .shake128) State.reset = none ∧ IsMessage State.reset 0 [] :=
  ⟨rfl, by decide, rfl, fun k hk => absurd hk (Nat.not_lt_zero k)⟩

/-- The parameters with both buffers as large as they may be. -/
def largest : Params := { Config.vcfg with ibufBytes := 65536, obufBytes := 65536 }

theorem witness_LocationsDoNotOverlap :
    largest.WellFormed ∧ (⟨.ibuf, 0x10000, 65536, false, .rw⟩ : MapEntry) ∈ hostMap largest ∧
    covers 0x1FFFF ⟨.ibuf, 0x10000, 65536, false, .rw⟩ = true := by decide

theorem witness_BusErrorChangesNoCoreState :
    (0 < State.reset.params.numHosts ∧ checkAccess State.reset.params .read 0x100 2 = .error .width ∧
      checkAccess State.reset.params .read 0x102 4 = .error .misaligned ∧
      checkAccess State.reset.params .read 0x02C 4 = .error .unmapped ∧
      checkAccess State.reset.params .write 0x200 1 = .error .readonly) ∧
    ((State.reset.offer (.access (read32 0 0x004))).inputs.head? ≠ some .reset ∧
      ∃ t, step (State.reset.offer (.access (read32 0 0x004))) = .next t) ∧
    ∃ t, step (State.reset.offer .reset) = .next t :=
  ⟨⟨by decide, rfl, rfl, rfl, rfl⟩, ⟨by decide, _, rfl⟩, _, rfl⟩

/-- The parameters with an input buffer that ends inside a word. -/
def odd : Params := { Config.vcfg with ibufBytes := 254 }

theorem witness_RefusedAccessIsBusError :
    0 < State.reset.params.numHosts ∧ (2 ≠ 1 ∧ 2 ≠ 4) ∧ (0x102 : Word).toNat % 4 ≠ 0 ∧
    ((0x02C : Word).toNat % 4 = 0 ∧ ∀ e ∈ hostMap State.reset.params, covers (0x02C : Word).toNat e = false) ∧
    ((0x4C8 : Word).toNat % 4 = 0 ∧ ∀ e ∈ hostMap State.reset.params, covers (0x4C8 : Word).toNat e = false) ∧
    (∀ e ∈ hostMap State.reset.params, covers (0x2B0 : Word).toNat e = false) ∧
    ((0x100FC : Word).toNat % 4 = 0 ∧ odd.WellFormed ∧
      ∃ e ∈ hostMap odd, covers (0x100FC : Word).toNat e = true ∧ covers ((0x100FC : Word).toNat + 3) e = false) ∧
    (0x02B : Word).toNat < 0x02C ∧ (0x028 : Word) ∈ ([0x004, 0x00C, 0x024, 0x028] : List Word) ∧
    ((0x2AC : Word).toNat % 4 = 0 ∧ 0x200 ≤ (0x2AC : Word).toNat ∧ (0x2AC : Word).toNat < 0x2B0) := by decide

theorem witness_ReadsHaveNoSideEffect :
    (read8 0 0x100).kind = .read ∧ (∃ t, step (State.reset.offer (.access (read8 0 0x100))) = .next t) ∧
    ∃ t, step (State.reset.offer (.access (read8 0 0x02C))) = .next t := ⟨rfl, ⟨_, rfl⟩, _, rfl⟩

theorem witness_RegistersReadBack :
    0 < State.reset.params.numHosts ∧ (0x008 : Word) ∈ ([0x008, 0x010, 0x014, 0x018, 0x01C, 0x020] : List Word) ∧
    (0x020 : Word) ∈ ([0x008, 0x010, 0x014, 0x018, 0x01C, 0x020] : List Word) := by decide

theorem witness_BufferWriteChangesOnlyItsBytes :
    0 < State.reset.params.numHosts ∧ (write8 0 0x200FF 0xAA).kind = .write ∧
    (∃ e, checkAccess State.reset.params .write 0x200FF 1 = .ok e ∧ e.isRegister = false) ∧
    ∃ e, checkAccess State.reset.params .write 0x10C 4 = .ok e ∧ e.isRegister = false :=
  ⟨by decide, rfl, ⟨_, rfl, rfl⟩, _, rfl, rfl⟩

theorem witness_WordWriteIsLittleEndian :
    0 < State.reset.params.numHosts ∧
    (∃ e, checkAccess State.reset.params .write 0x10C 4 = .ok e ∧ e.isRegister = false) ∧
    (∃ e, checkAccess State.reset.params .write 0x4C4 4 = .ok e ∧ e.isRegister = false) ∧
    (∃ e, checkAccess State.reset.params .write 0x100FC 4 = .ok e ∧ e.isRegister = false) ∧
    ∃ e, checkAccess State.reset.params .write 0x200FC 4 = .ok e ∧ e.isRegister = false :=
  ⟨by decide, ⟨_, rfl, rfl⟩, ⟨_, rfl, rfl⟩, ⟨_, rfl, rfl⟩, _, rfl, rfl⟩

theorem witness_ReadsReturnBufferBytes :
    0 < abc.params.numHosts ∧ abc.params.WellFormed ∧
    (175 + 1 ≤ 176 ∧ ∀ j, j < 1 → abc.ksched[175 + j]? = [(0x00 : Byte)][j]?) ∧
    (196 % 4 = 0 ∧ 196 + 4 ≤ 200 ∧ ∀ j, j < 4 → abc.kstate[196 + j]? = [(0x00 : Byte), 0x00, 0x00, 0x00][j]?) ∧
    (2 + 1 ≤ abc.params.ibufBytes ∧ (∀ j, j < 1 → Memory.read abc.ibuf (2 + j) = [(0x63 : Byte)][j]?) ∧
      Memory.read abc.ibuf 3 = none) ∧
    ∀ j, j < 1 → Memory.read other.obuf (40 + j) = [(0xBB : Byte)][j]? := by decide

theorem witness_ReadOfUnwrittenByteFaults :
    0 < abc.params.numHosts ∧
    (∃ e, checkAccess abc.params .read 0x10000 4 = .ok e ∧ e.loc = .ibuf ∧ 3 < 4 ∧
      Memory.read (if e.loc = .ibuf then abc.ibuf else abc.obuf) ((0x10000 : Word).toNat - e.base + 3) = none) ∧
    ∃ e, checkAccess abc.params .read 0x200FF 1 = .ok e ∧ e.loc = .obuf ∧ 0 < 1 ∧
      Memory.read (if e.loc = .ibuf then abc.ibuf else abc.obuf) ((0x200FF : Word).toNat - e.base + 0) = none :=
  ⟨by decide, ⟨⟨.ibuf, 0x10000, 256, false, .rw⟩, rfl, rfl, by decide, by decide⟩,
    ⟨.obuf, 0x20000, 256, false, .rw⟩, rfl, rfl, by decide, by decide⟩

theorem witness_StepStopsOnlyWhereDeclared :
    step (State.reset.offer (.access (read32 1 0x004))) = .refused (.noSuchHost 1) ∧
    step (abc.offer (.access (read32 0 0x10000))) = .fault (.unwritten 0 0x10000 4) ∧
    step (short.offer (.access (commandWrite 0x11))) = .fault (.unwritten 0 0x000 3) := ⟨rfl, rfl, rfl⟩

theorem witness_ResetStateReadsAsListed : 15 < 16 ∧ 175 < 176 ∧ 199 < 200 := by decide

theorem witness_LanesAndBytesAreInverse : 63 < 64 := by decide

theorem witness_IdleCoreKeepsState : State.reset.inputs = [] := rfl

theorem witness_ResetMeetsInvariant : largest.WellFormed := by decide

theorem witness_StepKeepsParameters : ∃ t, step (State.reset.offer .reset) = .next t := ⟨_, rfl⟩

/-- A state in which the next input is a command of the sponge and every invariant holds. -/
def running : State := abc.offer (.access (commandWrite 0x23))

theorem witness_StepKeepsBuffersWellFormed : running.BuffersWellFormed ∧ ∃ t, step running = .next t :=
  ⟨by decide, _, rfl⟩

theorem witness_StepKeepsStatusAgreement :
    running.params.WellFormed ∧ running.StatusAgrees ∧ ∃ t, step running = .next t := ⟨by decide, by decide, _, rfl⟩

theorem witness_StepKeepsKeyusedProvisioned :
    running.KeyusedProvisioned ∧ (∃ t, step running = .next t) ∧
    ∃ t, step (State.reset.offer (.access (commandWrite 0x01))) = .next t := ⟨by decide, ⟨_, rfl⟩, _, rfl⟩

theorem witness_OnlyResetUnwritesBytes :
    (∃ t, step (other.offer (.access (commandWrite 0x23))) = .next t) ∧ Memory.read other.ibuf 2 ≠ none ∧
    Memory.read other.obuf 40 ≠ none := ⟨⟨_, rfl⟩, by decide, by decide⟩

/-- Some access, from `abc`, makes the change `p`. -/
def changes (a : Access) (p : State → Bool) : Bool := nextWith p (step (abc.offer (.access a)))

theorem witness_ChangesHaveTheirCauses_commands :
    changes (commandWrite 0x11) (fun t => decide (t.cmd ≠ abc.cmd ∧ t.result ≠ abc.result ∧ t.lastop ≠ abc.lastop)) = true ∧
    changes (commandWrite 0x01) (fun t => decide (t.ksched ≠ abc.ksched)) = true ∧
    changes (commandWrite 0x02) (fun t => decide (t.block ≠ abc.block)) = true := by decide +kernel

theorem witness_ChangesHaveTheirCauses_registers :
    changes (write32 0 0x008 1) (fun t => decide (t.keyidx ≠ abc.keyidx)) = true ∧
    changes (write32 0 0x010 1) (fun t => decide (t.rate ≠ abc.rate)) = true ∧
    changes (write32 0 0x014 1) (fun t => decide (t.capacity ≠ abc.capacity)) = true ∧
    changes (write32 0 0x018 1) (fun t => decide (t.suffix ≠ abc.suffix)) = true ∧
    changes (write32 0 0x01C 1) (fun t => decide (t.inlen ≠ abc.inlen)) = true ∧
    changes (write32 0 0x020 1) (fun t => decide (t.outlen ≠ abc.outlen)) = true := by decide

theorem witness_ChangesHaveTheirCauses_buffers :
    changes (write8 0 0x10F 1) (fun t => decide (t.block ≠ abc.block)) = true ∧
    changes (write8 0 0x4C7 1) (fun t => decide (t.kstate ≠ abc.kstate)) = true ∧
    changes (write8 0 0x100FF 1) (fun t => decide (t.ibuf ≠ abc.ibuf)) = true ∧
    changes (write8 0 0x200FF 1) (fun t => decide (t.obuf ≠ abc.obuf)) = true := by decide +kernel

theorem witness_LoadblkLoadsBlockInOrder :
    0 < State.reset.params.numHosts ∧
    State.inputs { State.reset with inputs := assemble 0 [.loadblk (hexBlock 0x00112233445566778899aabbccddeeff)] } =
      assemble 0 [.loadblk (hexBlock 0x00112233445566778899aabbccddeeff)] := ⟨by decide, rfl⟩

end Sys2Proof.Tests
end

section
/-! The parameters KEYS, IBUF_BYTES, OBUF_BYTES and NUM_HOSTS are fixed for a run (00_scope.md R12): each operation of the core
keeps them, and so does every step. -/

namespace Sys2Proof.Machine

@[simp] theorem spongeState_params (rt : Nat) (sf : Byte) (msg : List Byte) (len : Nat) (op : Byte) (s : State) :
    (spongeState rt sf msg len op s).params = s.params := rfl

theorem spongeCommand_keeps_params {rt cp : Nat} {sf : Byte} {n len : Nat} {op : Byte} {s t : State}
    (h : spongeCommand rt cp sf n len op s = .next t) : t.params = s.params := by
  obtain ⟨c, -, rfl⟩ | ⟨-, msg, -, rfl⟩ := spongeCommand_next h
  · exact State.finish_params c op s
  · exact spongeState_params rt sf msg len op s

/-- Four commands complete with a record update that does not name the parameters; the other seven are sponge commands. -/
theorem exec_keeps_params {i : Instr} {s t : State} (h : exec i s = .next t) : t.params = s.params := by
  cases i with
  | expandkey | encrypt | decrypt | keccakf =>
    cases h
    rfl
  | keccak | shake128 | shake256 | sha3_224 | sha3_256 | sha3_384 | sha3_512 =>
    simp only [exec_keccak, exec_shake128, exec_shake256, exec_sha3_224, exec_sha3_256, exec_sha3_384, exec_sha3_512] at h
    exact spongeCommand_keeps_params h

theorem perform_keeps_params {v : Word} {s t : State} (h : perform v s = .next t) : t.params = s.params := by
  obtain ⟨i, -, hp⟩ | ⟨-, hp⟩ | ⟨-, hp⟩ := perform_cases v s <;> rw [hp] at h
  · exact exec_keeps_params h
  · cases h
    exact State.finish_params _ _ s
  · cases h
    exact State.finish_params _ _ s

theorem performAccess_keeps_params {a : Access} {s t : State} (h : performAccess a s = .next t) :
    t.params = s.params := by
  obtain ⟨-, ⟨r, -, rfl⟩ | ⟨-, e, v, -, -, rfl⟩ | ⟨-, e, -, -, rfl⟩ | ⟨-, e, -, -, hp⟩⟩ := performAccess_next h
  · rw [State.recordBusError_params]
  · rw [State.returnValue_params]
  · rw [(writeLocation_keeps _ _ _ _ _).1]
  · rw [perform_keeps_params hp]

/-- Settles O54: an idle step and a reset keep the parameters, and so does whatever an access can do. -/
theorem stepKeepsParameters : Obligations.StepKeepsParameters := by
  intro s t h
  obtain ⟨-, rfl⟩ | ⟨rest, -, rfl⟩ | ⟨a, rest, -, ha⟩ := step_next h
  · rfl
  · rw [State.afterReset_params]
  · rw [performAccess_keeps_params ha]

end Sys2Proof.Machine
end

section
/-! All that a command, a performed word and a Write change, field by field (10_state.md R33 to R45, 20_memory.md R83, R98), and
where the map puts what an access reaches (R32). -/

namespace Sys2Proof.Machine

/-! The state a sponge command leaves (44_sponge.md R309). -/

section SpongeState
variable (rt : Nat) (sf : Byte) (msg : List Byte) (len : Nat) (op : Byte) (s : State)

@[simp] theorem spongeState_cmd : (spongeState rt sf msg len op s).cmd = s.cmd := rfl
@[simp] theorem spongeState_lastop : (spongeState rt sf msg len op s).lastop = op := rfl
@[simp] theorem spongeState_keyidx : (spongeState rt sf msg len op s).keyidx = s.keyidx := rfl
@[simp] theorem spongeState_keyused : (spongeState rt sf msg len op s).keyused = s.keyused := rfl
@[simp] theorem spongeState_rate : (spongeState rt sf msg len op s).rate = s.rate := rfl
@[simp] theorem spongeState_capacity : (spongeState rt sf msg len op s).capacity = s.capacity := rfl
@[simp] theorem spongeState_suffix : (spongeState rt sf msg len op s).suffix = s.suffix := rfl
@[simp] theorem spongeState_inlen : (spongeState rt sf msg len op s).inlen = s.inlen := rfl
@[simp] theorem spongeState_outlen : (spongeState rt sf msg len op s).outlen = s.outlen := rfl
@[simp] theorem spongeState_block : (spongeState rt sf msg len op s).block = s.block := rfl
@[simp] theorem spongeState_ksched : (spongeState rt sf msg len op s).ksched = s.ksched := rfl
@[simp] theorem spongeState_kstate : (spongeState rt sf msg len op s).kstate = (sponge rt sf msg len).2 := rfl
@[simp] theorem spongeState_ibuf : (spongeState rt sf msg len op s).ibuf = s.ibuf := rfl
@[simp] theorem spongeState_obuf :
    (spongeState rt sf msg len op s).obuf = Memory.writeBytes s.obuf 0 (sponge rt sf msg len).1 := rfl

end SpongeState

/-! Decoding. -/

theorem decodeOpcode_ok {op : Byte} {i : Instr} (h : decodeOpcode op = .ok i) : op = opcode i := by
  unfold decodeOpcode at h
  repeat' split at h
  all_goals cases h
  all_goals assumption

/-- A word that decodes to a command has no reserved bit set and holds the command's opcode (30_encoding.md R122, R123). -/
theorem decode_ok_fields {v : Word} {i : Instr} (h : decode v = .ok i) : reservedField v = 0 ∧ opcodeField v = opcode i := by
  unfold decode at h
  split at h
  · cases h
  · rename_i hr
    exact ⟨not_not.mp hr, decodeOpcode_ok h⟩

/-- A word is its two fields (30_encoding.md R120). -/
theorem reservedField_append_opcodeField (v : Word) : reservedField v ++ opcodeField v = v :=
  BitVec.extractLsb'_append_extractLsb'_eq_extractLsb' (by rfl) |>.trans (by simp)

theorem eq_encode_of_decode {v : Word} {i : Instr} (h : decode v = .ok i) : v = encode i := by
  obtain ⟨hr, ho⟩ := decode_ok_fields h
  rw [← reservedField_append_opcodeField v, hr, ho]
  rfl

/-! What a command changes (20_memory.md R98). -/

/-- The commands of the block cipher (30_encoding.md R122). -/
def aesCommands : List Instr := [.expandkey, .encrypt, .decrypt]

/-- The commands of the sponge (30_encoding.md R122). -/
def spongeCommands : List Instr := [.keccak, .shake128, .shake256, .sha3_224, .sha3_256, .sha3_384, .sha3_512]

/-- All a command can do when it answers a next state: expand the selected key and perhaps change BLOCK, permute KSTATE, or
run the sponge. -/
theorem exec_next {i : Instr} {s t : State} (h : exec i s = .next t) :
    (i ∈ aesCommands ∧ ∃ b, (i ∈ [.encrypt, .decrypt] ∨ b = s.block) ∧
      t = State.finish .ok (opcode i) { s.expandSelectedKey with block := b }) ∨
    (i = .keccakf ∧ t = State.finish .ok (opcode i) { s with kstate := keccakF s.kstate }) ∨
    (i ∈ spongeCommands ∧ ∃ rt cp sf len, spongeCommand rt cp sf s.inlen.toNat len (opcode i) s = .next t) := by
  cases i with
  | expandkey =>
    cases h
    exact .inl ⟨by decide, s.block, .inr rfl, rfl⟩
  | encrypt | decrypt =>
    cases h
    exact .inl ⟨by decide, _, .inl (by decide), rfl⟩
  | keccakf =>
    cases h
    exact .inr (.inl ⟨rfl, rfl⟩)
  | keccak | shake128 | shake256 | sha3_224 | sha3_256 | sha3_384 | sha3_512 =>
    simp only [exec_keccak, exec_shake128, exec_shake256, exec_sha3_224, exec_sha3_256, exec_sha3_384, exec_sha3_512] at h
    exact .inr (.inr ⟨by decide, _, _, _, _, h⟩)

/-- What a sponge command that answers a next state leaves as it was. -/
theorem spongeCommand_keeps {rt cp : Nat} {sf : Byte} {n len : Nat} {op : Byte} {s t : State}
    (h : spongeCommand rt cp sf n len op s = .next t) :
    t.ksched = s.ksched ∧ t.keyused = s.keyused ∧ t.block = s.block ∧ t.cmd = s.cmd ∧ t.keyidx = s.keyidx ∧
    t.rate = s.rate ∧ t.capacity = s.capacity ∧ t.suffix = s.suffix ∧ t.inlen = s.inlen ∧ t.outlen = s.outlen ∧
    t.ibuf = s.ibuf := by
  obtain ⟨c, -, rfl⟩ | ⟨-, msg, -, rfl⟩ := spongeCommand_next h <;> simp

/-- No command writes CMD, an operand register or IBUF. -/
theorem exec_keeps_operands {i : Instr} {s t : State} (h : exec i s = .next t) :
    t.cmd = s.cmd ∧ t.keyidx = s.keyidx ∧ t.rate = s.rate ∧ t.capacity = s.capacity ∧ t.suffix = s.suffix ∧
    t.inlen = s.inlen ∧ t.outlen = s.outlen ∧ t.ibuf = s.ibuf := by
  obtain ⟨-, b, -, rfl⟩ | ⟨-, rfl⟩ | ⟨-, rt, cp, sf, len, hsponge⟩ := exec_next h
  · simp
  · simp
  · obtain ⟨-, -, -, hkept⟩ := spongeCommand_keeps hsponge
    exact hkept

/-- The commands that change KSCHED or KEYUSED, BLOCK, KSTATE, and OBUF. -/
theorem exec_changes {i : Instr} {s t : State} (h : exec i s = .next t) :
    (t.ksched ≠ s.ksched ∨ t.keyused ≠ s.keyused → i ∈ aesCommands) ∧
    (t.block ≠ s.block → i ∈ [.encrypt, .decrypt]) ∧
    (t.kstate ≠ s.kstate → i ∈ .keccakf :: spongeCommands) ∧
    (t.obuf ≠ s.obuf → i ∈ spongeCommands) := by
  obtain ⟨hi, b, hb, rfl⟩ | ⟨rfl, rfl⟩ | ⟨hi, rt, cp, sf, len, hsponge⟩ := exec_next h
  · exact ⟨fun _ => hi, hb.resolve_right, absurd rfl, absurd rfl⟩
  · simp
  · obtain ⟨hksched, hkeyused, hblock, -⟩ := spongeCommand_keeps hsponge
    simp [hi, hksched, hkeyused, hblock]

theorem perform_keeps_operands {v : Word} {s t : State} (h : perform v s = .next t) :
    t.cmd = s.cmd ∧ t.keyidx = s.keyidx ∧ t.rate = s.rate ∧ t.capacity = s.capacity ∧ t.suffix = s.suffix ∧
    t.inlen = s.inlen ∧ t.outlen = s.outlen ∧ t.ibuf = s.ibuf := by
  obtain ⟨i, -, hp⟩ | ⟨-, hp⟩ | ⟨-, hp⟩ := perform_cases v s <;> rw [hp] at h
  · exact exec_keeps_operands h
  · cases h
    simp
  · cases h
    simp

/-- The command words that change KSCHED or KEYUSED, BLOCK, KSTATE, and OBUF. -/
theorem perform_changes {v : Word} {s t : State} (h : perform v s = .next t) :
    (t.ksched ≠ s.ksched ∨ t.keyused ≠ s.keyused → v ∈ ([1, 2, 3] : List Word)) ∧
    (t.block ≠ s.block → v ∈ ([2, 3] : List Word)) ∧
    (t.kstate ≠ s.kstate → v ∈ ([0x10, 0x11, 0x20, 0x21, 0x22, 0x23, 0x24, 0x25] : List Word)) ∧
    (t.obuf ≠ s.obuf → v ∈ ([0x11, 0x20, 0x21, 0x22, 0x23, 0x24, 0x25] : List Word)) := by
  obtain ⟨i, hd, hp⟩ | ⟨-, hp⟩ | ⟨-, hp⟩ := perform_cases v s <;> rw [hp] at h
  · obtain ⟨hks, hblock, hkstate, hobuf⟩ := exec_changes h
    have word {is : List Instr} (hi : i ∈ is) : v ∈ is.map encode :=
      List.mem_map.mpr ⟨i, hi, (eq_encode_of_decode hd).symm⟩
    exact ⟨fun hc => word (hks hc), fun hc => word (hblock hc), fun hc => word (hkstate hc), fun hc => word (hobuf hc)⟩
  · cases h
    simp
  · cases h
    simp

/-! What a Write changes (20_memory.md R83). -/

/-- No Write changes STATUS, KSCHED or KEYUSED itself. -/
theorem writeLocation_keeps_readonly (loc : Location) (k n : Nat) (v : Word) (s : State) :
    (writeLocation loc k n v s).result = s.result ∧ (writeLocation loc k n v s).lastop = s.lastop ∧
    (writeLocation loc k n v s).ksched = s.ksched ∧ (writeLocation loc k n v s).keyused = s.keyused := by
  cases loc <;> exact ⟨rfl, rfl, rfl, rfl⟩

/-- Each other field is changed by a Write of its own location only. -/
theorem writeLocation_changes (loc : Location) (k n : Nat) (v : Word) (s : State) :
    ((writeLocation loc k n v s).cmd ≠ s.cmd → loc = .cmd) ∧
    ((writeLocation loc k n v s).keyidx ≠ s.keyidx → loc = .keyidx) ∧
    ((writeLocation loc k n v s).rate ≠ s.rate → loc = .rate) ∧
    ((writeLocation loc k n v s).capacity ≠ s.capacity → loc = .capacity) ∧
    ((writeLocation loc k n v s).suffix ≠ s.suffix → loc = .suffix) ∧
    ((writeLocation loc k n v s).inlen ≠ s.inlen → loc = .inlen) ∧
    ((writeLocation loc k n v s).outlen ≠ s.outlen → loc = .outlen) ∧
    ((writeLocation loc k n v s).block ≠ s.block → loc = .block) ∧
    ((writeLocation loc k n v s).kstate ≠ s.kstate → loc = .kstate) ∧
    ((writeLocation loc k n v s).ibuf ≠ s.ibuf → loc = .ibuf) ∧
    ((writeLocation loc k n v s).obuf ≠ s.obuf → loc = .obuf) := by
  cases loc <;> simp [writeLocation]

/-! Where the map puts what an access reaches (10_state.md R32). -/

theorem hostMap_locations_nodup (p : Params) : ((hostMap p).map MapEntry.loc).Nodup := by
  simp [hostMap]

/-- An access that passes the checks lies in the row that the map gives its location. -/
theorem checkAccess_row {p : Params} {kind : AccessKind} {off : Word} {n : Nat} {e f : MapEntry}
    (h : checkAccess p kind off n = .ok e) (hf : f ∈ hostMap p) (hloc : e.loc = f.loc) : e = f :=
  List.inj_on_of_nodup_map (hostMap_locations_nodup p) (checkAccess_ok h).1 hf hloc

/-- An access that passes the checks and reaches a row has its whole width in it. -/
theorem checkAccess_in_row {p : Params} {kind : AccessKind} {off : Word} {n : Nat} {e : MapEntry} (f : MapEntry)
    (h : checkAccess p kind off n = .ok e) (hf : f ∈ hostMap p) (hloc : e.loc = f.loc) :
    f.base ≤ off.toNat ∧ off.toNat < f.base + f.size ∧ off.toNat - e.base + n ≤ f.size := by
  obtain ⟨-, hn, -, hlow, hhigh, -⟩ := checkAccess_ok h
  obtain rfl := checkAccess_row h hf hloc
  exact ⟨hlow, by omega, by omega⟩

/-- An access that passes the checks and reaches a register has the register's offset. -/
theorem checkAccess_register_off {p : Params} {kind : AccessKind} {off base : Word} {n : Nat} {e : MapEntry}
    {loc : Location} {rights : Rights} (h : checkAccess p kind off n = .ok e)
    (hf : (⟨loc, base.toNat, 4, true, rights⟩ : MapEntry) ∈ hostMap p) (hloc : e.loc = loc) : off = base := by
  obtain ⟨-, -, -, hlow, hhigh, hreg, -⟩ := checkAccess_ok h
  obtain rfl := checkAccess_row h hf hloc
  obtain rfl := hreg rfl
  simp only at hlow hhigh
  exact BitVec.eq_of_toNat_eq (by omega)

end Sys2Proof.Machine
end

section
/-! Invariants of the machine: what one step must keep, packaged once. -/

namespace Sys2Proof.Machine

/-- Every step keeps `P` when `P` does not speak of the bus errors and the model's own fields, holds after a reset, and is kept
by a Write of any location but CMD and by the performing of a word just written to CMD. -/
theorem step_keeps {P : State → Prop}
    (frame : ∀ (s : State) (busErrors : List BusError) (inputs : List Input) (issuer : Nat) (returned : List Reply),
      P s → P { s with busErrors := busErrors, inputs := inputs, issuer := issuer, returned := returned })
    (reset : ∀ s : State, P s → P s.afterReset)
    (write : ∀ (s : State) (off v : Word) (n : Nat) (e : MapEntry), P s → checkAccess s.params .write off n = .ok e →
      e.loc ≠ .cmd → P (writeLocation e.loc (off.toNat - e.base) n v s))
    (command : ∀ (s t : State) (v : Word), P s → perform v { s with cmd := v } = .next t → P t)
    {s t : State} (hs : P s) (h : step s = .next t) : P t := by
  obtain ⟨-, rfl⟩ | ⟨rest, -, rfl⟩ | ⟨a, rest, -, ha⟩ := step_next h
  · exact hs
  · exact reset _ (frame s _ rest _ _ hs)
  · have hissued := frame s s.busErrors rest a.host s.returned hs
    obtain ⟨-, ⟨r, -, rfl⟩ | ⟨-, e, v, -, -, rfl⟩ | ⟨-, e, hc, hloc, rfl⟩ | ⟨-, e, -, -, hp⟩⟩ := performAccess_next ha
    · exact frame s _ _ _ _ hs
    · exact frame s _ _ _ _ hs
    · exact write _ _ _ _ _ hissued hc hloc
    · exact command _ _ _ hissued hp

/-- Performing a word keeps what a STATUS update and every command keep. -/
theorem perform_keeps {P : State → Prop} (finish : ∀ (s : State) (c : ResultCode) (op : Byte), P s → P (s.finish c op))
    (command : ∀ (s t : State) (i : Instr), P s → exec i s = .next t → P t)
    {v : Word} {s t : State} (hs : P s) (h : perform v s = .next t) : P t := by
  obtain ⟨i, -, hp⟩ | ⟨-, hp⟩ | ⟨-, hp⟩ := perform_cases v s <;> rw [hp] at h
  · exact command s t i hs h
  · cases h
    exact finish s _ _ hs
  · cases h
    exact finish s _ _ hs

/-! The buffers (10_state.md R44, R45). -/

theorem spongeCommand_keeps_buffersWellFormed {rt cp : Nat} {sf : Byte} {n len : Nat} {op : Byte} {s t : State}
    (hs : s.BuffersWellFormed) (h : spongeCommand rt cp sf n len op s = .next t) : t.BuffersWellFormed := by
  obtain ⟨hiwf, hiwithin, howf, howithin⟩ := hs
  obtain ⟨c, -, rfl⟩ | ⟨hp, msg, -, rfl⟩ := spongeCommand_next h
  · exact ⟨hiwf, hiwithin, howf, howithin⟩
  · obtain ⟨hlow, hhigh⟩ := hp.rate_bounds
    obtain ⟨-, -, -, hlen⟩ := hp
    have hout := sponge_length rt sf msg len hlow hhigh
    exact ⟨hiwf, hiwithin, Memory.wf_writeBytes _ _ howf, Memory.within_writeBytes _ (by rwa [hout, Nat.zero_add]) howithin⟩

theorem exec_keeps_buffersWellFormed {i : Instr} {s t : State} (hs : s.BuffersWellFormed) (h : exec i s = .next t) :
    t.BuffersWellFormed := by
  obtain ⟨-, b, -, rfl⟩ | ⟨-, rfl⟩ | ⟨-, rt, cp, sf, len, hsponge⟩ := exec_next h
  · exact hs
  · exact hs
  · exact spongeCommand_keeps_buffersWellFormed hs hsponge

/-- A Write stores inside the buffer it reaches, because the checks put its whole width there. -/
theorem writeLocation_keeps_buffersWellFormed {s : State} {off : Word} {n : Nat} {e : MapEntry} (v : Word)
    (hs : s.BuffersWellFormed) (hc : checkAccess s.params .write off n = .ok e) :
    (writeLocation e.loc (off.toNat - e.base) n v s).BuffersWellFormed := by
  obtain ⟨hiwf, hiwithin, howf, howithin⟩ := hs
  cases hloc : e.loc with
  | ibuf =>
    obtain ⟨-, -, hfits⟩ :=
      checkAccess_in_row ⟨.ibuf, 0x10000, s.params.ibufBytes, false, .rw⟩ hc (by simp [hostMap]) hloc
    exact ⟨Memory.wf_writeBytes _ _ hiwf, Memory.within_writeBytes _ (by rwa [leBytes_length]) hiwithin, howf, howithin⟩
  | obuf =>
    obtain ⟨-, -, hfits⟩ :=
      checkAccess_in_row ⟨.obuf, 0x20000, s.params.obufBytes, false, .rw⟩ hc (by simp [hostMap]) hloc
    exact ⟨hiwf, hiwithin, Memory.wf_writeBytes _ _ howf, Memory.within_writeBytes _ (by rwa [leBytes_length]) howithin⟩
  | _ => exact ⟨hiwf, hiwithin, howf, howithin⟩

/-- After reset both buffers are empty. -/
theorem resetWith_buffersWellFormed (p : Params) : (State.resetWith p).BuffersWellFormed :=
  ⟨.nil, List.forall_mem_nil _, .nil, List.forall_mem_nil _⟩

/-- Settles O55: a Write stores within the row it reaches, and a sponge command no more output than OBUF holds. -/
theorem stepKeepsBuffersWellFormed : Obligations.StepKeepsBuffersWellFormed := by
  intro s t hs h
  exact step_keeps (P := State.BuffersWellFormed) (fun _ _ _ _ _ hs => hs)
    (fun s _ => resetWith_buffersWellFormed s.params)
    (fun _ _ v _ _ hs hc _ => writeLocation_keeps_buffersWellFormed v hs hc)
    (fun s _ v hs hp => perform_keeps (P := State.BuffersWellFormed) (s := { s with cmd := v }) (fun _ _ _ hs => hs)
      (fun _ _ _ hs h => exec_keeps_buffersWellFormed hs h) hs hp) hs h

/-! STATUS beside CMD (10_state.md R34, 60_exceptions.md R350, R351). -/

/-- The code a sponge command ends with, and what each failure code but ERR_INLEN says of its parameters. -/
theorem spongeCommand_status {rt cp : Nat} {sf : Byte} {n len : Nat} {op : Byte} {s t : State}
    (h : spongeCommand rt cp sf n len op s = .next t) :
    t.lastop = op ∧
    (t.result = .ok ∨ t.result = .errInlen ∨ (t.result = .errParams ∧ paramsOk rt cp = false) ∨
      (t.result = .errRateZero ∧ rt = 0) ∨ (t.result = .errOutlen ∧ s.params.obufBytes < len)) := by
  obtain ⟨hparams, h'⟩ | ⟨-, hzero, h'⟩ | ⟨-, -, -, h'⟩ | ⟨-, -, -, hlen, h'⟩ | ⟨-, k, -, h'⟩ | ⟨-, msg, -, h'⟩ :=
    spongeCommand_cases rt cp sf n len op s <;> rw [h] at h' <;> cases h'
  · simp [hparams]
  · simp [hzero]
  · simp
  · simp [hlen]
  · simp

/-- A command ends with its opcode in LASTOP and a code the column "raised by" gives it. The SHA3 digests, of 28 to 64 bytes,
fit in every legal OBUF. -/
theorem exec_status {i : Instr} {s t : State} (hw : s.params.WellFormed) (h : exec i s = .next t) :
    t.lastop = opcode i ∧ t.result ∈ possibleResults i := by
  obtain ⟨-, hobuf, -, -⟩ := hw
  cases i with
  | expandkey | encrypt | decrypt | keccakf =>
    cases h
    exact ⟨rfl, List.mem_singleton_self _⟩
  | keccak =>
    obtain ⟨hop, hr⟩ := spongeCommand_status h
    refine ⟨hop, ?_⟩
    obtain hr | hr | ⟨hr, -⟩ | ⟨hr, -⟩ | ⟨hr, -⟩ := hr <;> simp [possibleResults, hr]
  | shake128 | shake256 =>
    simp only [exec_shake128, exec_shake256] at h
    obtain ⟨hop, hr⟩ := spongeCommand_status h
    refine ⟨hop, ?_⟩
    obtain hr | hr | ⟨-, hbad⟩ | ⟨-, hbad⟩ | ⟨hr, -⟩ := hr
    · simp [possibleResults, hr]
    · simp [possibleResults, hr]
    · exact absurd hbad (by decide)
    · exact absurd hbad (by decide)
    · simp [possibleResults, hr]
  | sha3_224 | sha3_256 | sha3_384 | sha3_512 =>
    simp only [exec_sha3_224, exec_sha3_256, exec_sha3_384, exec_sha3_512] at h
    obtain ⟨hop, hr⟩ := spongeCommand_status h
    refine ⟨hop, ?_⟩
    obtain hr | hr | ⟨-, hbad⟩ | ⟨-, hbad⟩ | ⟨-, hbad⟩ := hr
    · simp [possibleResults, hr]
    · simp [possibleResults, hr]
    · exact absurd hbad (by decide)
    · exact absurd hbad (by decide)
    · omega

/-- Whatever CMD held before, performing the word in it leaves STATUS in agreement with it. -/
theorem perform_statusAgrees {s t : State} (hw : s.params.WellFormed) (h : perform s.cmd s = .next t) : t.StatusAgrees := by
  obtain ⟨hcmd, -⟩ := perform_keeps_operands h
  simp only [State.StatusAgrees, hcmd, resultsFor]
  obtain ⟨i, hd, hp⟩ | ⟨hd, hp⟩ | ⟨hd, hp⟩ := perform_cases s.cmd s <;> rw [hp] at h <;> rw [hd]
  · obtain ⟨-, hop⟩ := decode_ok_fields hd
    rw [hop]
    exact exec_status hw h
  · cases h
    simp
  · cases h
    refine ⟨rfl, ?_⟩
    show ResultCode.errOpcode ∈ if s.cmd = 0 then [ResultCode.errOpcode, .none] else [.errOpcode]
    split <;> simp

/-- A Write of any location but CMD leaves CMD and STATUS alone. -/
theorem writeLocation_keeps_statusAgrees {s : State} {loc : Location} (k n : Nat) (v : Word) (hloc : loc ≠ .cmd)
    (hs : s.StatusAgrees) : (writeLocation loc k n v s).StatusAgrees := by
  obtain ⟨hcmd, -⟩ := writeLocation_changes loc k n v s
  obtain ⟨hresult, hlastop, -⟩ := writeLocation_keeps_readonly loc k n v s
  simpa only [State.StatusAgrees, hresult, hlastop, not_not.mp (mt hcmd hloc)] using hs

theorem resetWith_statusAgrees (p : Params) : (State.resetWith p).StatusAgrees :=
  ⟨rfl, by simp [State.resetWith, resultsFor, decode, reservedField, decodeOpcode, opcodeField]⟩

/-- Settles O56: a performed word writes a code of its own into STATUS, and nothing else writes CMD or STATUS but reset. -/
theorem stepKeepsStatusAgreement : Obligations.StepKeepsStatusAgreement := by
  intro s t hw hs h
  refine (step_keeps (P := fun s => s.params.WellFormed ∧ s.StatusAgrees) (fun _ _ _ _ _ hs => hs) ?_ ?_ ?_ ⟨hw, hs⟩ h).2
  · exact fun s hs => ⟨hs.1, resetWith_statusAgrees s.params⟩
  · rintro s off v n e ⟨hw, hs⟩ - hloc
    obtain ⟨hparams, -⟩ := writeLocation_keeps e.loc (off.toNat - e.base) n v s
    exact ⟨hparams ▸ hw, writeLocation_keeps_statusAgrees _ _ _ hloc hs⟩
  · rintro s t v ⟨hw, -⟩ hp
    exact ⟨perform_keeps_params hp ▸ hw, perform_statusAgrees (s := { s with cmd := v }) hw hp⟩

/-! KEYUSED (10_state.md R36, 41_aes_key_schedule.md R200). -/

/-- The default key is provisioned. -/
theorem keys_zero_ne_none (p : Params) : keys p 0 ≠ none := by simp [keys]

/-- The index that ResolveKey uses is provisioned, whatever index it is asked for. -/
theorem resolveKey_provisioned (p : Params) (k : Word) : keys p (resolveKey p k).1 ≠ none := by
  unfold resolveKey
  split
  · simp [*]
  · exact keys_zero_ne_none p

theorem exec_keeps_keyusedProvisioned {i : Instr} {s t : State} (hs : s.KeyusedProvisioned) (h : exec i s = .next t) :
    t.KeyusedProvisioned := by
  obtain ⟨-, b, -, rfl⟩ | ⟨-, rfl⟩ | ⟨-, rt, cp, sf, len, hsponge⟩ := exec_next h
  · exact resolveKey_provisioned s.params s.keyidx
  · exact hs
  · obtain ⟨-, hkeyused, -⟩ := spongeCommand_keeps hsponge
    simpa only [State.KeyusedProvisioned, spongeCommand_keeps_params hsponge, hkeyused] using hs

theorem writeLocation_keeps_keyusedProvisioned {s : State} (loc : Location) (k n : Nat) (v : Word)
    (hs : s.KeyusedProvisioned) : (writeLocation loc k n v s).KeyusedProvisioned := by
  obtain ⟨hparams, -⟩ := writeLocation_keeps loc k n v s
  obtain ⟨-, -, -, hkeyused⟩ := writeLocation_keeps_readonly loc k n v s
  simpa only [State.KeyusedProvisioned, hparams, hkeyused] using hs

/-- Settles O57: an AES command writes the index that ResolveKey uses, a reset index 0, and nothing else writes KEYUSED. -/
theorem stepKeepsKeyusedProvisioned : Obligations.StepKeepsKeyusedProvisioned := by
  intro s t hs h
  exact step_keeps (P := State.KeyusedProvisioned) (fun _ _ _ _ _ hs => hs) (fun s _ => keys_zero_ne_none s.params)
    (fun _ _ _ _ _ hs _ _ => writeLocation_keeps_keyusedProvisioned _ _ _ _ hs)
    (fun s _ v hs hp => perform_keeps (P := State.KeyusedProvisioned) (s := { s with cmd := v }) (fun _ _ _ hs => hs)
      (fun _ _ _ hs h => exec_keeps_keyusedProvisioned hs h) hs hp) hs h

/-- Settles O53: the base case of the three invariants. -/
theorem resetMeetsInvariant : Obligations.ResetMeetsInvariant := by
  have reset_inv (p : Params) (hp : p.WellFormed) : (State.resetWith p).Inv :=
    ⟨hp, resetWith_buffersWellFormed p, resetWith_statusAgrees p, keys_zero_ne_none p⟩
  exact ⟨reset_inv, reset_inv Config.vcfg (by decide)⟩

end Sys2Proof.Machine
end

section
/-! The map, the reset state, and what each step can change (10_state.md R32 to R47, 20_memory.md R98). -/

namespace Sys2Proof.Machine

/-- The rows of the map stand in the order of their offsets, each ending before the next begins: IBUF is at most 0x10000 bytes
long (00_scope.md R10). -/
theorem hostMap_rows_ordered {p : Params} (hp : p.WellFormed) :
    (hostMap p).Pairwise fun e f => e.base + e.size ≤ f.base := by
  obtain ⟨hibuf, -⟩ := hp
  have hend : 0x10000 + p.ibufBytes ≤ 0x20000 := by omega
  simpa [hostMap] using hend

/-- Settles O40: of two rows of the map one ends before the other begins, so no offset lies in both. -/
theorem locationsDoNotOverlap : Obligations.LocationsDoNotOverlap := by
  intro p k e₁ e₂ hp h₁ h₂ hc₁ hc₂
  have hbefore : (hostMap p).Pairwise fun e f => covers k e = true → covers k f = true → e = f := by
    refine (hostMap_rows_ordered hp).imp fun {e f} hef he hf => ?_
    simp only [covers, decide_eq_true_eq] at he hf
    omega
  have hafter := hbefore.imp fun {e f} h (hf : covers k f = true) (he : covers k e = true) => (h he hf).symm
  exact hbefore.forall_of_forall_of_flip (fun _ _ _ _ => rfl) hafter h₁ h₂ hc₁ hc₂

/-- Settles O59: an access that only records a bus error or answers a Read changes none of these; a Write changes the field of
the location it reaches, which the map puts at the offset named; a Write of CMD performs a word. -/
theorem changesHaveTheirCauses : Obligations.ChangesHaveTheirCauses := by
  intro s t a h command writeAt writeIn
  rw [step_offer_access] at h
  obtain ⟨-, ⟨r, -, rfl⟩ | ⟨-, e, v, -, -, rfl⟩ | ⟨hk, e, hc, hcmd, rfl⟩ | ⟨hk, e, hc, hcmd, hp⟩⟩ := performAccess_next h
  · simp
  · simp
  · obtain ⟨hresult, hlastop, hksched, hkeyused⟩ := writeLocation_keeps_readonly e.loc (a.off.toNat - e.base) a.n a.value
      { s with issuer := a.host }
    obtain ⟨cmd, keyidx, rate, capacity, suffix, inlen, outlen, block, kstate, ibuf, obuf⟩ :=
      writeLocation_changes e.loc (a.off.toNat - e.base) a.n a.value { s with issuer := a.host }
    have register {loc : Location} {off : Word}
        (hf : (⟨loc, off.toNat, 4, true, .rw⟩ : MapEntry) ∈ hostMap s.params) (hloc : e.loc = loc) : writeAt off :=
      ⟨hk, checkAccess_register_off hc hf hloc⟩
    have buffer {loc : Location} {base size : Nat}
        (hf : (⟨loc, base, size, false, .rw⟩ : MapEntry) ∈ hostMap s.params) (hloc : e.loc = loc) :
        writeIn base size := by
      obtain ⟨hlow, hhigh, -⟩ := checkAccess_in_row _ hc hf hloc
      exact ⟨hk, hlow, hhigh⟩
    refine ⟨?_, ?_, fun hx => register (by simp [hostMap]) (keyidx hx), fun hx => register (by simp [hostMap]) (rate hx),
      fun hx => register (by simp [hostMap]) (capacity hx), fun hx => register (by simp [hostMap]) (suffix hx),
      fun hx => register (by simp [hostMap]) (inlen hx), fun hx => register (by simp [hostMap]) (outlen hx),
      fun hx => .inr (buffer (by simp [hostMap]) (block hx)), fun hx => .inr (buffer (by simp [hostMap]) (kstate hx)),
      fun hx => buffer (by simp [hostMap]) (ibuf hx), fun hx => .inr (buffer (by simp [hostMap]) (obuf hx))⟩
    · rintro (hx | hx | hx)
      · exact absurd (cmd hx) hcmd
      · exact absurd hresult hx
      · exact absurd hlastop hx
    · rintro (hx | hx)
      · exact absurd hksched hx
      · exact absurd hkeyused hx
  · have hoff : a.off = 0x000 := checkAccess_register_off (rights := .rw) hc (by simp [hostMap]) hcmd
    obtain ⟨-, hkeyidx, hrate, hcapacity, hsuffix, hinlen, houtlen, hibuf⟩ := perform_keeps_operands hp
    obtain ⟨hks, hblock, hkstate, hobuf⟩ := perform_changes hp
    exact ⟨fun _ => ⟨hk, hoff⟩, fun hx => ⟨hk, hoff, hks hx⟩, absurd hkeyidx, absurd hrate, absurd hcapacity,
      absurd hsuffix, absurd hinlen, absurd houtlen, fun hx => .inl ⟨hk, hoff, hblock hx⟩,
      fun hx => .inl ⟨hk, hoff, hkstate hx⟩, absurd hibuf, fun hx => .inl ⟨hk, hoff, hobuf hx⟩⟩

/-- A 4-byte Write at offset 0 passes the checks and reaches CMD. -/
theorem checkAccess_write_cmd (p : Params) : checkAccess p .write 0x000 4 = .ok ⟨.cmd, 0x000, 4, true, .rw⟩ := rfl

/-- A Write of CMD by a host context that exists performs the word with CMD set (10_state.md R33, 20_memory.md R83). -/
theorem performAccess_write_cmd {h : Nat} {s : State} (hh : h < s.params.numHosts) (v : Word) :
    performAccess ⟨h, .write, 0x000, 4, v⟩ s = perform v { s with issuer := h, cmd := v } := by
  simp only [performAccess, if_pos hh, performWrite, checkAccess_write_cmd]
  rfl

theorem perform_of_decode {v : Word} {i : Instr} (hd : decode v = .ok i) (s : State) : perform v s = exec i s := by
  simp only [perform, hd]

/-- Settles O4: the Write passes the checks, so the step sets CMD and performs the word, which runs what it decodes to. -/
theorem stepRunsDecodedCommand : Obligations.StepRunsDecodedCommand := by
  intro s h v rest hin hh
  have hstep : step s = perform v { s with inputs := rest, issuer := h, cmd := v } :=
    (step_access hin).trans (performAccess_write_cmd (s := { s with inputs := rest }) hh v)
  exact ⟨hstep, fun i hd => hstep.trans (perform_of_decode hd _)⟩

/-- Settles O50: by the fields of State.resetWith; only STATUS (NONE is 0xFF) and SUFFIX are put together by the read. -/
theorem resetStateReadsAsListed : Obligations.ResetStateReadsAsListed := by
  intro p s
  have zeros {n : Nat} (k : Nat) (hk : k < n) : (Vector.replicate n (0x00 : Byte))[k]? = some 0 :=
    Vector.getElem?_replicate_of_lt hk
  have hstatus : statusWord s = 0x000000FF := by simp [statusWord, s, State.resetWith, resultByte]
  have hsuffix : suffixWord s = 0 := by simp [suffixWord, s, State.resetWith]
  exact ⟨rfl, congrArg some hstatus, rfl, rfl, rfl, rfl, congrArg some hsuffix, rfl, rfl, rfl, rfl, zeros, zeros, zeros,
    fun _ => ⟨rfl, rfl⟩, rfl⟩

end Sys2Proof.Machine
end

section
/-! What each command writes, and what a second run of it leaves (20_memory.md R91, R98): the checks of the sponge commands as
one function of their operands, and the sparse buffers under a row of bytes written twice. -/

namespace Sys2Proof.Machine

open Sys2Proof.Reference

/-! The commands by their operands (44_sponge.md R309 to R316). -/

/-- A command with sponge operands is the sponge command run with these. -/
theorem exec_of_spongeOperands {i : Instr} {s : State} {o : SpongeOperands} (ho : spongeOperands (encode i) s = some o) :
    exec i s = spongeCommand o.rate o.capacity o.suffix o.length o.outLength (opcode i) s := by
  cases i with
  | expandkey | encrypt | decrypt | keccakf => cases ho
  | _ =>
    cases ho
    rfl

/-- A command has sponge operands or is one of the four that never fail (60_exceptions.md R354). -/
theorem spongeOperands_cases (i : Instr) (s : State) :
    (i ∈ spongeCommands ∧ ∃ o, spongeOperands (encode i) s = some o) ∨
    (i ∈ .keccakf :: aesCommands ∧ spongeOperands (encode i) s = none ∧ ∃ t, exec i s = .next t) := by
  cases i with
  | expandkey | encrypt | decrypt | keccakf => exact .inr ⟨by decide, rfl, _, rfl⟩
  | _ => exact .inl ⟨by decide, _, rfl⟩

/-- The operands are taken from the registers alone. -/
theorem spongeOperands_congr {s t : State} (v : Word) (hrate : t.rate = s.rate) (hcapacity : t.capacity = s.capacity)
    (hsuffix : t.suffix = s.suffix) (hinlen : t.inlen = s.inlen) (houtlen : t.outlen = s.outlen) :
    spongeOperands v t = spongeOperands v s := by
  simp only [spongeOperands, hrate, hcapacity, hsuffix, hinlen, houtlen]

/-- The first of the four checks to fail, in the order of 44_sponge.md R300 and R301, none if all pass. -/
def checksFailure (rt cp n len : Nat) (p : Params) : Option ResultCode :=
  if rt + cp ≠ 1600 ∨ rt % 8 ≠ 0 then some .errParams
  else if rt = 0 then some .errRateZero
  else if p.ibufBytes < n then some .errInlen
  else if p.obufBytes < len then some .errOutlen
  else none

/-- A command's word is small and its opcode defined (30_encoding.md R122). -/
theorem encode_defined (i : Instr) : (encode i).toNat < 256 ∧ (encode i).toNat ∈ definedOpcodes := by
  cases i <;> decide

/-- The first failure that applies to a command's word is that of its checks (60_exceptions.md R352, R354). -/
theorem firstFailure_encode (i : Instr) (s : State) :
    firstFailure (encode i) s =
      (spongeOperands (encode i) s).bind fun o => checksFailure o.rate o.capacity o.length o.outLength s.params := by
  obtain ⟨hsmall, hdefined⟩ := encode_defined i
  rw [firstFailure, if_neg (Nat.not_le.mpr hsmall), if_neg (not_not.mpr hdefined)]
  cases spongeOperands (encode i) s <;> rfl

theorem paramsOk_eq_false_iff (rt cp : Nat) : paramsOk rt cp = false ↔ rt + cp ≠ 1600 ∨ rt % 8 ≠ 0 := by
  simp only [paramsOk, Bool.and_eq_false_iff, beq_eq_false_iff_ne]

/-- A sponge command with a failing check writes the first one's code to STATUS, and nothing else. -/
theorem spongeCommand_of_checksFailure {rt cp n len : Nat} {s : State} {c : ResultCode} (sf op : Byte)
    (h : checksFailure rt cp n len s.params = some c) : spongeCommand rt cp sf n len op s = .next (s.finish c op) := by
  simp only [spongeCommand, paramsOk_eq_false_iff]
  unfold checksFailure at h
  split_ifs at h ⊢ <;> cases h <;> rfl

theorem checksFailure_eq_none_iff {rt cp n len : Nat} {s : State} :
    checksFailure rt cp n len s.params = none ↔ ChecksPass rt cp n len s := by
  have hparams := paramsOk_eq_false_iff rt cp
  unfold checksFailure ChecksPass
  split_ifs <;> simp_all

/-- A command to whose word a failure applies writes the failure's code to STATUS and nothing else (60_exceptions.md R353). -/
theorem exec_of_firstFailure {i : Instr} {s : State} {c : ResultCode} (h : firstFailure (encode i) s = some c) :
    exec i s = .next (s.finish c (opcode i)) := by
  rw [firstFailure_encode, Option.bind_eq_some_iff] at h
  obtain ⟨o, ho, hc⟩ := h
  rw [exec_of_spongeOperands ho, spongeCommand_of_checksFailure _ _ hc]

/-- A sponge command writes STATUS, KSTATE and OBUF at most, and no byte of OBUF at or above its output length. -/
theorem spongeCommand_writes {rt cp : Nat} {sf : Byte} {n len : Nat} {op : Byte} {s t : State}
    (h : spongeCommand rt cp sf n len op s = .next t) :
    t = { s with result := t.result, lastop := t.lastop, kstate := t.kstate, obuf := t.obuf } ∧
    ∀ k, len ≤ k → Memory.read t.obuf k = Memory.read s.obuf k := by
  obtain ⟨c, -, rfl⟩ | ⟨hpass, msg, -, rfl⟩ := spongeCommand_next h
  · exact ⟨rfl, fun _ _ => rfl⟩
  · obtain ⟨hlow, hhigh⟩ := hpass.rate_bounds
    refine ⟨rfl, fun k hk => Memory.read_writeBytes_outside _ _ (.inr ?_)⟩
    rwa [sponge_length rt sf msg len hlow hhigh, Nat.zero_add]

/-- Settles O7: the four other commands by their arms of `exec`, a sponge command by what its shared body writes. -/
theorem commandsWriteOnlyTheirState : Obligations.CommandsWriteOnlyTheirState := by
  intro s t i h
  refine ⟨fun c hc => ?_, fun o ho k hk => ?_, ?_⟩
  · rw [exec_of_firstFailure hc] at h
    cases h
    rfl
  · rw [exec_of_spongeOperands ho] at h
    exact (spongeCommand_writes h).2 k hk
  · cases i with
    | expandkey | encrypt | decrypt | keccakf =>
      cases h
      rfl
    | _ =>
      rw [exec_of_spongeOperands rfl] at h
      exact (spongeCommand_writes h).1

/-! A second run (20_memory.md R91). -/

/-- A byte that stands where it would be stored: its cell comes first, or a cell of lower index does. -/
theorem Memory.write_cons_eq_self_iff {a k : Nat} {b v : Byte} {m : Memory} :
    Memory.write ((a, b) :: m) k v = (a, b) :: m ↔ (k = a ∧ v = b) ∨ (a < k ∧ Memory.write m k v = m) := by
  rw [Memory.write]
  split_ifs with hlt heq
  · have hlonger : (k, v) :: (a, b) :: m ≠ (a, b) :: m := List.cons_ne_self _ _
    simp only [hlonger, false_iff]
    omega
  · simp [heq]
  · simp [heq, show a < k by omega]

/-- A byte that stands where it would be stored still does after a Write of another byte. -/
theorem Memory.write_eq_self_write {m : Memory} {k j : Nat} {v : Byte} (w : Byte) (h : Memory.write m k v = m)
    (hj : j ≠ k) : Memory.write (Memory.write m j w) k v = Memory.write m j w := by
  induction m with
  | nil => cases h
  | cons c m ih =>
    obtain ⟨a, b⟩ := c
    rw [Memory.write]
    split_ifs with hlt heq
    · refine Memory.write_cons_eq_self_iff.mpr (.inr ⟨?_, h⟩)
      obtain ⟨rfl, -⟩ | ⟨hak, -⟩ := Memory.write_cons_eq_self_iff.mp h <;> omega
    · obtain ⟨rfl, -⟩ | ⟨hak, hm⟩ := Memory.write_cons_eq_self_iff.mp h
      · exact absurd heq hj
      · exact Memory.write_cons_eq_self_iff.mpr (.inr ⟨heq ▸ hak, hm⟩)
    · obtain hhere | ⟨hak, hm⟩ := Memory.write_cons_eq_self_iff.mp h
      · exact Memory.write_cons_eq_self_iff.mpr (.inl hhere)
      · exact Memory.write_cons_eq_self_iff.mpr (.inr ⟨hak, ih hm⟩)

/-- A byte stands where a Write of it puts it, whatever the buffer. -/
theorem Memory.write_write_same (m : Memory) (k : Nat) (v : Byte) :
    Memory.write (Memory.write m k v) k v = Memory.write m k v := by
  induction m with
  | nil => exact Memory.write_cons_eq_self_iff.mpr (.inl ⟨rfl, rfl⟩)
  | cons c m ih =>
    obtain ⟨a, b⟩ := c
    rw [Memory.write]
    split_ifs
    · exact Memory.write_cons_eq_self_iff.mpr (.inl ⟨rfl, rfl⟩)
    · exact Memory.write_cons_eq_self_iff.mpr (.inl ⟨rfl, rfl⟩)
    · exact Memory.write_cons_eq_self_iff.mpr (.inr ⟨by omega, ih⟩)

theorem Memory.write_eq_self_writeBytes {m : Memory} {k j : Nat} {v : Byte} (bs : List Byte)
    (h : Memory.write m k v = m) (hj : k < j) :
    Memory.write (Memory.writeBytes m j bs) k v = Memory.writeBytes m j bs := by
  induction bs generalizing m j with
  | nil => exact h
  | cons b bs ih => exact ih (Memory.write_eq_self_write b h (by omega)) (by omega)

/-- A row of bytes written a second time changes nothing, not even the form of a buffer that is not canonical. -/
theorem Memory.writeBytes_writeBytes_same (m : Memory) (k : Nat) (bs : List Byte) :
    Memory.writeBytes (Memory.writeBytes m k bs) k bs = Memory.writeBytes m k bs := by
  induction bs generalizing m k with
  | nil => rfl
  | cons b bs ih =>
    simp only [Memory.writeBytes]
    rw [Memory.write_eq_self_writeBytes bs (Memory.write_write_same m k b) (by omega), ih]

/-- A sponge command that passes its checks and meets an unwritten message byte stops (44_sponge.md R309). -/
theorem spongeCommand_stops {rt cp n len k : Nat} {s : State} (sf op : Byte) (hc : ChecksPass rt cp n len s)
    (hm : message s n = .error k) : spongeCommand rt cp sf n len op s = .fault (.unwritten s.issuer 0 k) := by
  obtain ⟨h1, h2, h3, h4⟩ := hc
  rw [spongeCommand, if_neg (by simp [h1]), if_neg h2, if_neg (by omega), if_neg (by omega), hm]

theorem spongeState_spongeState (rt : Nat) (sf : Byte) (msg : List Byte) (len : Nat) (op : Byte) (s : State) :
    spongeState rt sf msg len op (spongeState rt sf msg len op s) = spongeState rt sf msg len op s := by
  simp only [spongeState, State.finish, Memory.writeBytes_writeBytes_same]

/-- The checks look at the operands and the parameters, the message at IBUF, and neither is written; the sponge starts from
zeros. -/
theorem spongeCommand_idempotent {rt cp : Nat} {sf : Byte} {n len : Nat} {op : Byte} {s t : State}
    (h : spongeCommand rt cp sf n len op s = .next t) : spongeCommand rt cp sf n len op t = .next t := by
  cases hc : checksFailure rt cp n len s.params with
  | some c =>
    rw [spongeCommand_of_checksFailure sf op hc] at h
    cases h
    exact spongeCommand_of_checksFailure sf op hc
  | none =>
    have hpass := checksFailure_eq_none_iff.mp hc
    cases hm : message s n with
    | error k =>
      rw [spongeCommand_stops sf op hpass hm] at h
      cases h
    | ok msg =>
      rw [spongeCommand_completes sf op hpass hm] at h
      cases h
      have hagain := spongeCommand_completes (s := spongeState rt sf msg len op s) sf op hpass hm
      rwa [spongeState_spongeState] at hagain

/-- Settles O8: EXPANDKEY reads KEYIDX and the parameters only, which no command writes. -/
theorem repeatedCommandIsIdempotent : Obligations.RepeatedCommandIsIdempotent := by
  intro s t i hencrypt hdecrypt hkeccakf h
  obtain ⟨-, o, ho⟩ | ⟨hi, -, -⟩ := spongeOperands_cases i s
  · obtain ⟨-, -, hrate, hcapacity, hsuffix, hinlen, houtlen, -⟩ := exec_keeps_operands h
    have ho' := (spongeOperands_congr (encode i) hrate hcapacity hsuffix hinlen houtlen).trans ho
    rw [exec_of_spongeOperands ho] at h
    rw [exec_of_spongeOperands ho', spongeCommand_idempotent h]
  · obtain rfl : i = .expandkey := by simpa [aesCommands, hencrypt, hdecrypt, hkeccakf] using hi
    cases h
    rfl

end Sys2Proof.Machine
end

section
/-! The checks of a host access and the map they look at (10_state.md R32, 20_memory.md R81, R89). -/

namespace Sys2Proof.Machine

/-! Locating an offset. -/

theorem covers_iff {k : Nat} {e : MapEntry} : covers k e = true ↔ e.base ≤ k ∧ k < e.base + e.size := by
  simp only [covers, decide_eq_true_eq]

theorem hostMap_base_aligned {p : Params} {e : MapEntry} (he : e ∈ hostMap p) : e.base % 4 = 0 := by
  have hall : ∀ base ∈ (hostMap Config.vcfg).map MapEntry.base, base % 4 = 0 := by decide
  have hmem : e.base ∈ (hostMap p).map MapEntry.base := List.mem_map_of_mem he
  exact hall e.base hmem

theorem hostMap_register_ne_obuf {p : Params} {e : MapEntry} (he : e ∈ hostMap p) (hreg : e.isRegister = true) :
    e.loc ≠ .obuf := by
  have hall : ∀ e ∈ hostMap p, e.isRegister = true → e.loc ≠ .obuf := by simp [hostMap]
  exact hall e he hreg

/-- The rows of the map before IBUF, whose places and sizes no parameter changes. -/
def fixedRows : List MapEntry := (hostMap Config.vcfg).take 14

theorem hostMap_eq_append (p : Params) :
    hostMap p = fixedRows ++ [⟨.ibuf, 0x10000, p.ibufBytes, false, .rw⟩, ⟨.obuf, 0x20000, p.obufBytes, false, .rw⟩] := rfl

theorem fixedRows_ordered : fixedRows.Pairwise fun e f => e.base + e.size ≤ f.base := by decide

theorem fixedRows_end_le : ∀ e ∈ fixedRows, e.base + e.size ≤ 0x10000 := by decide

/-- The rows of the map stand in the order of their offsets, each ending before the next begins, but that an IBUF longer than
a legal one runs into OBUF. -/
theorem hostMap_rows_ordered_before (p : Params) :
    (hostMap p).Pairwise fun e f => e.base ≤ f.base ∧ ((f.loc = .obuf → p.WellFormed) → e.base + e.size ≤ f.base) := by
  rw [hostMap_eq_append, List.pairwise_append]
  refine ⟨fixedRows_ordered.imp fun h => ⟨by omega, fun _ => h⟩, ?_, fun e he f hf => ?_⟩
  · refine List.pairwise_pair.mpr ⟨by simp, fun hp => ?_⟩
    obtain ⟨hibuf, -⟩ := hp rfl
    show 0x10000 + p.ibufBytes ≤ 0x20000
    omega
  · have hend := fixedRows_end_le e he
    have hbase : 0x10000 ≤ f.base := by
      obtain rfl | rfl : f = _ ∨ f = _ := by simpa using hf
      · simp
      · simp
    exact ⟨by omega, fun _ => by omega⟩

/-- A row that covers an offset is the one located, with legal parameters, and any but OBUF with all parameters. -/
theorem locate_of_covers {p : Params} {k : Nat} {e : MapEntry} (he : e ∈ hostMap p) (hk : covers k e = true)
    (hp : e.loc = .obuf → p.WellFormed) : locate p k = some e := by
  obtain ⟨before, after, hmap⟩ := List.append_of_mem he
  have hordered := hostMap_rows_ordered_before p
  rw [hmap, List.pairwise_append] at hordered
  obtain ⟨-, -, hbefore⟩ := hordered
  refine List.find?_eq_some_iff_append.mpr ⟨hk, before, after, hmap, fun f hf => ?_⟩
  obtain ⟨-, hends⟩ := hbefore f hf e (List.mem_cons_self)
  have hend := hends hp
  rw [covers_iff] at hk
  simp only [covers, Bool.not_eq_true', decide_eq_false_iff_not]
  omega

/-- The row located at an offset is located at each later offset that it covers. -/
theorem locate_of_le {p : Params} {j k : Nat} {e : MapEntry} (hj : locate p j = some e) (hjk : j ≤ k)
    (hk : covers k e = true) : locate p k = some e := by
  obtain ⟨hcov, before, after, hmap, hnot⟩ := List.find?_eq_some_iff_append.mp hj
  have hordered := hostMap_rows_ordered_before p
  rw [hmap, List.pairwise_append] at hordered
  obtain ⟨-, -, hbefore⟩ := hordered
  refine List.find?_eq_some_iff_append.mpr ⟨hk, before, after, hmap, fun f hf => ?_⟩
  obtain ⟨hbase, -⟩ := hbefore f hf e (List.mem_cons_self)
  have hf := hnot f hf
  rw [covers_iff] at hcov hk
  simp only [covers, Bool.not_eq_true', decide_eq_false_iff_not] at hf ⊢
  omega

/-! The checks. -/

section Checks
variable {p : Params} {kind : AccessKind} {off : Word} {n : Nat} {e : MapEntry}

theorem checkAccess_width (kind : AccessKind) (off : Word) (h1 : n ≠ 1) (h4 : n ≠ 4) :
    checkAccess p kind off n = .error .width := by
  rw [checkAccess, if_pos ⟨h1, h4⟩]

theorem checkAccess_misaligned (kind : AccessKind) (hn : n = 1 ∨ n = 4) (ho : off.toNat % n ≠ 0) :
    checkAccess p kind off n = .error .misaligned := by
  rw [checkAccess, if_neg (by omega), if_pos ho]

theorem checkAccess_unmapped (kind : AccessKind) (hn : n = 1 ∨ n = 4) (ho : off.toNat % n = 0)
    (hl : locate p off.toNat = none) : checkAccess p kind off n = .error .unmapped := by
  rw [checkAccess, if_neg (by omega), if_neg (by omega), hl]

/-- The tests that follow once the row of the first byte is located (20_memory.md R81). -/
theorem checkAccess_located (kind : AccessKind) (hn : n = 1 ∨ n = 4) (ho : off.toNat % n = 0)
    (hl : locate p off.toNat = some e) :
    checkAccess p kind off n =
      if covers (off.toNat + n - 1) e = false then .error .unmapped
      else if e.isRegister = true ∧ n ≠ 4 then .error .width
      else if kind = .write ∧ e.rights = .ro then .error .readonly
      else .ok e := by
  rw [checkAccess, if_neg (by omega), if_neg (by omega), hl]

/-- No 1-byte access is misaligned. -/
theorem checkAccess_byte_ne_misaligned : checkAccess p kind off 1 ≠ .error .misaligned := by
  have ho : off.toNat % 1 = 0 := Nat.mod_one _
  cases hl : locate p off.toNat with
  | none =>
    rw [checkAccess_unmapped kind (.inl rfl) ho hl]
    simp
  | some e =>
    rw [checkAccess_located kind (.inl rfl) ho hl]
    split_ifs <;> simp

/-- The row that an access passing the checks reaches is the one located at its offset. -/
theorem locate_of_checkAccess_ok (h : checkAccess p kind off n = .ok e) : locate p off.toNat = some e := by
  obtain ⟨-, hn, ho, -⟩ := checkAccess_ok h
  cases hl : locate p off.toNat with
  | none =>
    rw [checkAccess_unmapped kind hn ho hl] at h
    cases h
  | some f =>
    rw [checkAccess_located kind hn ho hl] at h
    split_ifs at h
    cases h
    rfl

/-- The converse of `checkAccess_ok`, for a located row. -/
theorem checkAccess_ok_of_located (hl : locate p off.toNat = some e) (hn : n = 1 ∨ n = 4) (ho : off.toNat % n = 0)
    (hhigh : off.toNat + n ≤ e.base + e.size) (hreg : e.isRegister = true → n = 4)
    (hrights : kind = .write → e.rights = .rw) : checkAccess p kind off n = .ok e := by
  obtain ⟨hcov, -⟩ := List.find?_eq_some_iff_append.mp hl
  rw [covers_iff] at hcov
  rw [checkAccess_located kind hn ho hl, if_neg, if_neg, if_neg]
  · rintro ⟨hk, hro⟩
    simp [hrights hk] at hro
  · rintro ⟨hr, h4⟩
    exact h4 (hreg hr)
  · rw [Bool.not_eq_false, covers_iff]
    omega

/-- A 4-byte access at a register's offset passes all checks but perhaps that of the rights. -/
theorem checkAccess_register (kind : AccessKind) {loc : Location} {rights : Rights}
    (hrow : (⟨loc, off.toNat, 4, true, rights⟩ : MapEntry) ∈ hostMap p) :
    checkAccess p kind off 4 =
      if kind = .write ∧ rights = .ro then .error .readonly else .ok ⟨loc, off.toNat, 4, true, rights⟩ := by
  have hcov : ∀ k, off.toNat ≤ k → k < off.toNat + 4 → covers k ⟨loc, off.toNat, 4, true, rights⟩ = true :=
    fun k hlow hhigh => covers_iff.mpr ⟨hlow, hhigh⟩
  have hl := locate_of_covers hrow (hcov off.toNat (by omega) (by omega))
    (absurd · (hostMap_register_ne_obuf hrow rfl))
  rw [checkAccess_located kind (.inr rfl) (hostMap_base_aligned hrow) hl, if_neg, if_neg]
  · simp
  · rw [Bool.not_eq_false]
    exact hcov _ (by omega) (by omega)

end Checks

/-! What an access does. -/

section Access
variable {s : State} {h : Nat} {off v w : Word} {n : Nat} {e : MapEntry}

/-- A refused access is recorded as a bus error and has no other effect (20_memory.md R85). -/
theorem performAccess_refused {a : Access} {r : BusReason} (hh : a.host < s.params.numHosts)
    (hc : checkAccess s.params a.kind a.off a.n = .error r) :
    performAccess a s =
      .next { s with issuer := a.host, busErrors := s.busErrors ++ [⟨a.host, a.kind, a.off, a.n, r⟩] } := by
  obtain ⟨host, kind, off, n, value⟩ := a
  cases kind <;> simp only [performAccess, if_pos hh, performRead, performWrite, hc] <;> rfl

/-- A Read that passes the checks and covers no unwritten byte returns its value (20_memory.md R82). -/
theorem performAccess_read_returns (hh : h < s.params.numHosts) (hc : checkAccess s.params .read off n = .ok e)
    (hv : readLocation s e.loc (off.toNat - e.base) n = some v) :
    performAccess ⟨h, .read, off, n, w⟩ s = .next { s with issuer := h, returned := s.returned ++ [⟨h, off, n, v⟩] } := by
  simp only [performAccess, if_pos hh, performRead, hc, readLocation_issuer, hv]
  rfl

/-- A Read that passes the checks and covers an unwritten byte stops (20_memory.md R99). -/
theorem performAccess_read_faults (hh : h < s.params.numHosts) (hc : checkAccess s.params .read off n = .ok e)
    (hv : readLocation s e.loc (off.toNat - e.base) n = none) :
    performAccess ⟨h, .read, off, n, w⟩ s = .fault (.unwritten h off n) := by
  simp only [performAccess, if_pos hh, performRead, hc, readLocation_issuer, hv]

/-- A Write that passes the checks and reaches another location than CMD stores its value (20_memory.md R83). -/
theorem performAccess_write (hh : h < s.params.numHosts) (hc : checkAccess s.params .write off n = .ok e)
    (hloc : e.loc ≠ .cmd) :
    performAccess ⟨h, .write, off, n, v⟩ s =
      .next (writeLocation e.loc (off.toNat - e.base) n v { s with issuer := h }) := by
  simp only [performAccess, if_pos hh, performWrite, hc, if_neg hloc]

/-- A Write of CMD sets CMD and performs the word (20_memory.md R83). -/
theorem performAccess_write_command (hh : h < s.params.numHosts) (hc : checkAccess s.params .write off n = .ok e)
    (hloc : e.loc = .cmd) :
    performAccess ⟨h, .write, off, n, v⟩ s = perform v { s with issuer := h, cmd := v } := by
  simp only [performAccess, if_pos hh, performWrite, hc, hloc]
  rfl

theorem performAccess_no_such_host {a : Access} (hh : s.params.numHosts ≤ a.host) :
    performAccess a s = .refused (.noSuchHost a.host) := by
  rw [performAccess, if_neg (Nat.not_lt.mpr hh)]

end Access

/-! What is read at a location (20_memory.md R82). -/

section Location
variable {s : State} {loc : Location} {k n : Nat} {bs : List Byte}

theorem readLocation_register {v : Word} (hv : readRegister s loc = some v) : readLocation s loc k n = some v := by
  simp only [readLocation, hv]

/-- A Read of a buffer whose covered bytes are all written has their little-endian value. -/
theorem readLocation_written (hreg : readRegister s loc = none) (hlen : bs.length = n)
    (hbs : ∀ j, j < n → readBufferByte s loc (k + j) = bs[j]?) : readLocation s loc k n = some (leValue 32 bs) := by
  obtain ⟨cs, hcs, hclen, hbytes⟩ | ⟨-, j, hj, hnone⟩ := readBufferBytes_cases s loc n k
  · have heq : cs = bs := by
      refine List.ext_getElem? fun j => ?_
      by_cases hj : j < n
      · rw [← hbytes j hj, hbs j hj]
      · rw [List.getElem?_eq_none (by omega), List.getElem?_eq_none (by omega)]
    simp only [readLocation, hreg, hcs, heq]
  · rw [hbs j hj, List.getElem?_eq_none_iff] at hnone
    omega

/-- A Read has no value exactly where it covers an unwritten byte of a buffer. -/
theorem readLocation_eq_none_iff :
    readLocation s loc k n = none ↔
      readRegister s loc = none ∧ ∃ j, j < n ∧ readBufferByte s loc (k + j) = none := by
  cases hreg : readRegister s loc with
  | some v => simp [readLocation, hreg]
  | none =>
    obtain ⟨bs, hbs, hlen, hbytes⟩ | ⟨hnone, hex⟩ := readBufferBytes_cases s loc n k
    · simp only [readLocation, hreg, hbs, true_and, reduceCtorEq, false_iff, not_exists, not_and]
      intro j hj
      rw [hbytes j hj, List.getElem?_eq_none_iff]
      omega
    · simp only [readLocation, hreg, hnone, true_and, true_iff]
      exact hex

end Location

/-! Byte order (20_memory.md R86). -/

theorem leValue_leBytes (v : Word) : leValue 32 (leBytes v 4) = v := by
  refine BitVec.eq_of_getLsbD_eq fun i hi => ?_
  rw [leValue_getLsbD _ _ hi, leBytes_getElem?, if_pos (by omega), Option.getD_some, byteAt_getLsbD]
  simp [Nat.mod_lt, Nat.div_add_mod]

/-- Byte `j` of the value of a row of bytes is byte `j` of the row. -/
theorem byteAt_leValue {w j : Nat} {bs : List Byte} (hj : j < bs.length) (hw : 8 * bs.length ≤ w) :
    bs[j]? = some (byteAt (leValue w bs) j) := by
  rw [List.getElem?_eq_getElem hj]
  congr 1
  refine BitVec.eq_of_getLsbD_eq fun i hi => ?_
  rw [byteAt_getLsbD, leValue_getLsbD _ _ (by omega), show (8 * j + i) / 8 = j by omega,
    show (8 * j + i) % 8 = i by omega, List.getElem?_eq_getElem hj]
  simp [hi]

/-- The value of `n` bytes is below 256 ^ n. -/
theorem leValue_toNat_lt (w : Nat) (bs : List Byte) : (leValue w bs).toNat < 256 ^ bs.length := by
  rw [show 256 = 2 ^ 8 by rfl, ← Nat.pow_mul]
  refine Nat.lt_pow_two_of_testBit _ fun i hi => ?_
  rw [BitVec.testBit_toNat]
  by_cases hw : i < w
  · rw [leValue_getLsbD _ _ hw, List.getElem?_eq_none (by omega)]
    simp
  · exact BitVec.getLsbD_of_ge _ _ (by omega)

/-- Four bytes out of the value of a row are the value of four bytes out of the row. -/
theorem leValue_extract_word {w m : Nat} (bs : List Byte) (hw : 8 * m + 32 ≤ w) :
    (leValue w bs).extractLsb' (8 * m) 32 = leValue 32 ((bs.drop m).take 4) := by
  refine BitVec.eq_of_getLsbD_eq fun i hi => ?_
  rw [BitVec.getLsbD_extractLsb', leValue_getLsbD _ _ (by omega), leValue_getLsbD _ _ hi,
    show (8 * m + i) / 8 = m + i / 8 by omega, show (8 * m + i) % 8 = i % 8 by omega, List.getElem?_take,
    if_pos (by omega), List.getElem?_drop]
  simp [hi]

theorem and_low_byte (v : Word) : v &&& 0xFF = (v.extractLsb' 0 8).setWidth 32 := by
  apply BitVec.eq_of_toNat_eq
  have hmod := Nat.and_two_pow_sub_one_eq_mod v.toNat 8
  simpa using hmod.trans (by omega)

/-- A byte of a word, read alone, is the word shifted down to it and cut. -/
theorem leValue_byteAt (v : Word) (k : Nat) : leValue 32 [byteAt v k] = (v >>> (8 * k)) &&& 0xFF := by
  rw [and_low_byte]
  apply BitVec.eq_of_toNat_eq
  simp [leValue, byteAt]

/-- The value of four bytes has the first in its bits 7:0. -/
theorem leValue_four (a b c d : Byte) : leValue 32 [a, b, c, d] = d ++ c ++ b ++ a := by
  refine BitVec.eq_of_getLsbD_eq fun i hi => ?_
  rw [leValue_getLsbD _ _ hi]
  simp only [BitVec.getLsbD_append]
  obtain h | h | h | h : i / 8 = 0 ∨ i / 8 = 1 ∨ i / 8 = 2 ∨ i / 8 = 3 := by omega
  · simp [h, show i < 8 by omega, show i % 8 = i by omega]
  · simp [h, show ¬i < 8 by omega, show i - 8 < 8 by omega, show i % 8 = i - 8 by omega]
  · simp [h, show ¬i < 8 by omega, show ¬i - 8 < 8 by omega, show i - 8 - 8 < 8 by omega, show i % 8 = i - 8 - 8 by omega]
  · simp [h, show ¬i < 8 by omega, show ¬i - 8 < 8 by omega, show ¬i - 8 - 8 < 8 by omega,
      show i % 8 = i - 8 - 8 - 8 by omega]

end Sys2Proof.Machine
end

section
/-! The statements about the host port: bus errors, Reads, Writes of buffers, and where a step stops (20_memory.md R81 to R99). -/

namespace Sys2Proof.Machine

open Sys2Proof.Reference

/-! Bus errors (20_memory.md R81, R85, R89). -/

/-- No command touches the list of bus errors. -/
theorem exec_keeps_busErrors {i : Instr} {s t : State} (h : exec i s = .next t) : t.busErrors = s.busErrors := by
  obtain ⟨-, b, -, rfl⟩ | ⟨-, rfl⟩ | ⟨-, rt, cp, sf, len, hsponge⟩ := exec_next h
  · rfl
  · rfl
  · rw [(spongeCommand_writes hsponge).1]

theorem perform_keeps_busErrors {v : Word} {s t : State} (h : perform v s = .next t) : t.busErrors = s.busErrors :=
  perform_keeps (P := fun t => t.busErrors = s.busErrors) (fun _ _ _ hs => hs)
    (fun _ _ _ hs h => (exec_keeps_busErrors h).trans hs) rfl h

/-- No access takes a bus error off the list. -/
theorem performAccess_keeps_recorded {a : Access} {s t : State} (h : performAccess a s = .next t) :
    s.busErrors <+: t.busErrors := by
  obtain ⟨-, ⟨r, -, rfl⟩ | ⟨-, e, v, -, -, rfl⟩ | ⟨-, e, -, -, rfl⟩ | ⟨-, e, -, -, hp⟩⟩ := performAccess_next h
  · exact ⟨_, rfl⟩
  · exact ⟨[], List.append_nil _⟩
  · obtain ⟨-, hkept, -⟩ := writeLocation_keeps e.loc (a.off.toNat - e.base) a.n a.value { s with issuer := a.host }
    rw [hkept]
  · rw [perform_keeps_busErrors hp]

/-- Settles O41: a refused access is recorded at the end of the list, and neither a Read, a Write nor a command touches it. -/
theorem busErrorChangesNoCoreState : Obligations.BusErrorChangesNoCoreState := by
  refine ⟨fun s a r hh hc => performAccess_refused hh hc, fun s t hreset h => ?_, fun s t h => ?_⟩
  · obtain ⟨-, rfl⟩ | ⟨rest, hin, -⟩ | ⟨a, rest, -, ha⟩ := step_next h
    · exact ⟨[], List.append_nil _⟩
    · simp [hin] at hreset
    · exact performAccess_keeps_recorded (s := { s with inputs := rest }) ha
  · cases h
    rfl

/-- The registers stand at the word offsets below 0x02C (10_state.md R32). -/
theorem exists_register_row (p : Params) {k : Nat} (hk : k < 0x02C) :
    ∃ e ∈ hostMap p, e.isRegister = true ∧ covers k e = true := by
  simp [hostMap, covers]
  omega

/-- STATUS, KEYUSED, IBUFSIZE and OBUFSIZE are read-only registers (10_state.md R32). -/
theorem exists_readonly_row (p : Params) {off : Word} (ho : off ∈ ([0x004, 0x00C, 0x024, 0x028] : List Word)) :
    ∃ loc, (⟨loc, off.toNat, 4, true, .ro⟩ : MapEntry) ∈ hostMap p := by
  simp only [List.mem_cons, List.not_mem_nil, or_false] at ho
  obtain rfl | rfl | rfl | rfl := ho
  · exact ⟨.status, by simp [hostMap]⟩
  · exact ⟨.keyused, by simp [hostMap]⟩
  · exact ⟨.ibufsize, by simp [hostMap]⟩
  · exact ⟨.obufsize, by simp [hostMap]⟩

/-- Settles O42: the checks in their order, each with the row of the map it finds. -/
theorem refusedAccessIsBusError : Obligations.RefusedAccessIsBusError := by
  intro s a hh error
  have refused {r : BusReason} (hc : checkAccess s.params a.kind a.off a.n = .error r) :
      step (s.offer (.access a)) = .next (error r) := performAccess_refused hh hc
  have aligned (hn : a.n = 1 ∨ (a.n = 4 ∧ a.off.toNat % 4 = 0)) : (a.n = 1 ∨ a.n = 4) ∧ a.off.toNat % a.n = 0 := by
    obtain hn | ⟨hn, ho⟩ := hn <;> simp [Nat.mod_one, *]
  refine ⟨fun h1 h4 => refused (checkAccess_width _ _ h1 h4), fun hn ho => ?_, fun hn => ?_, fun hn hnone => ?_,
    fun hn ho hp ⟨e, he, hcov, hend⟩ => ?_, fun hn ho => ?_, fun hn hk ho => ?_, fun hn hk hlow hhigh => ?_⟩
  · exact refused (checkAccess_misaligned _ (.inr hn) (hn ▸ ho))
  · rw [hn]
    exact checkAccess_byte_ne_misaligned
  · obtain ⟨hwidth, hmod⟩ := aligned hn
    have hl : locate s.params a.off.toNat = none := List.find?_eq_none.mpr fun e he => by simp [hnone e he]
    exact refused (checkAccess_unmapped _ hwidth hmod hl)
  · have hl := locate_of_covers he hcov fun _ => hp
    obtain ⟨hwidth, hmod⟩ := aligned (.inr ⟨hn, ho⟩)
    refine refused ?_
    rw [checkAccess_located _ hwidth hmod hl, if_pos]
    rwa [hn]
  · obtain ⟨e, he, hreg, hcov⟩ := exists_register_row s.params ho
    have hl := locate_of_covers he hcov (absurd · (hostMap_register_ne_obuf he hreg))
    obtain ⟨hwidth, hmod⟩ := aligned (.inl hn)
    refine refused ?_
    rw [checkAccess_located _ hwidth hmod hl, hn, if_neg (by simp [hcov]), if_pos ⟨hreg, by decide⟩]
  · obtain ⟨loc, hrow⟩ := exists_readonly_row s.params ho
    refine refused ?_
    rw [hn, checkAccess_register _ hrow, if_pos ⟨hk, rfl⟩]
  · have hl : locate s.params a.off.toNat = some ⟨.ksched, 0x200, 176, false, .ro⟩ :=
      locate_of_covers (by simp [hostMap]) (covers_iff.mpr ⟨hlow, hhigh⟩) (by simp)
    obtain ⟨hwidth, hmod⟩ := aligned hn
    have hend : covers (a.off.toNat + a.n - 1) ⟨.ksched, 0x200, 176, false, .ro⟩ = true :=
      covers_iff.mpr (by simp only; omega)
    refine refused ?_
    rw [checkAccess_located _ hwidth hmod hl, if_neg (by simp [hend]), if_neg (by simp), if_pos ⟨hk, rfl⟩]

/-! Reads (20_memory.md R82, R91, R99). -/

/-- Settles O43: a Read records a bus error or returns a value. -/
theorem readsHaveNoSideEffect : Obligations.ReadsHaveNoSideEffect := by
  intro s t a hk h
  rw [step_offer_access] at h
  obtain ⟨-, ⟨r, -, rfl⟩ | ⟨-, e, v, -, -, rfl⟩ | ⟨hw, -⟩ | ⟨hw, -⟩⟩ := performAccess_next h
  · rfl
  · rfl
  · simp [hk] at hw
  · simp [hk] at hw

/-- Settles O48: the unwritten byte leaves the Read without a value. -/
theorem readOfUnwrittenByteFaults : Obligations.ReadOfUnwrittenByteFaults := by
  intro s h n k off v e hh hc hloc hk hnone
  have hbyte : readRegister s e.loc = none ∧ readBufferByte s e.loc (off.toNat - e.base + k) = none := by
    obtain hloc | hloc := hloc <;> simp only [hloc] at hnone ⊢ <;> exact ⟨rfl, hnone⟩
  obtain ⟨hreg, hbyte⟩ := hbyte
  exact performAccess_read_faults hh hc (readLocation_eq_none_iff.mpr ⟨hreg, k, hk, hbyte⟩)

/-- A 4-byte Read of a register returns its value. -/
theorem performAccess_read_register {s : State} {h : Nat} {loc : Location} {off v : Word} {rights : Rights}
    (hh : h < s.params.numHosts) (hrow : (⟨loc, off.toNat, 4, true, rights⟩ : MapEntry) ∈ hostMap s.params)
    (hv : readRegister s loc = some v) :
    performAccess (read32 h off) s = .next { s with issuer := h, returned := s.returned ++ [⟨h, off, 4, v⟩] } := by
  have hc := checkAccess_register .read hrow
  rw [if_neg (by simp)] at hc
  exact performAccess_read_returns hh hc (readLocation_register hv)

/-- STATUS is read as its two fields below sixteen zeros (10_state.md R34). -/
theorem statusWord_fields (s : State) :
    (statusWord s).extractLsb' 0 8 = resultByte s.result ∧ (statusWord s).extractLsb' 8 8 = s.lastop ∧
    (statusWord s).extractLsb' 16 16 = 0 := by
  refine ⟨BitVec.extractLsb'_append_eq_right, ?_, ?_⟩
  · exact (BitVec.extractLsb'_append_eq_of_le (Nat.le_refl 8)).trans BitVec.extractLsb'_append_eq_right
  · exact (BitVec.extractLsb'_append_eq_of_le (by decide)).trans BitVec.extractLsb'_append_eq_left

/-- SUFFIX is read as its byte below 24 zeros (10_state.md R38). -/
theorem suffixWord_fields (s : State) :
    (suffixWord s).extractLsb' 0 8 = s.suffix ∧ (suffixWord s).extractLsb' 8 24 = 0 := by
  exact ⟨BitVec.extractLsb'_append_eq_right, BitVec.extractLsb'_append_eq_left⟩

theorem zeros_append_byte (b : Byte) : 0#24 ++ b = b.setWidth 32 := by
  apply BitVec.eq_of_toNat_eq
  rw [BitVec.toNat_append]
  simp
  omega

/-- An operand register reads back, by any host, as what a Write by any host leaves in it. -/
theorem register_reads_back {s : State} {h g : Nat} {off v w : Word} (loc : Location) (hh : h < s.params.numHosts)
    (hg : g < s.params.numHosts) (hrow : (⟨loc, off.toNat, 4, true, .rw⟩ : MapEntry) ∈ hostMap s.params)
    (hloc : loc ≠ .cmd) (hv : ∀ t k, readRegister (writeLocation loc k 4 v t) loc = some w) :
    ∃ t u : State, step (s.offer (.access (write32 h off v))) = .next t ∧
      step (t.offer (.access (read32 g off))) = .next u ∧ u.returned = s.returned ++ [⟨g, off, 4, w⟩] := by
  have hc := checkAccess_register .write hrow
  rw [if_neg (by simp)] at hc
  have hwrite := performAccess_write (v := v) hh hc hloc
  obtain ⟨hparams, -, -, -, hreturned⟩ := writeLocation_keeps loc (off.toNat - off.toNat) 4 v { s with issuer := h }
  have hread := hv { s with issuer := h } (off.toNat - off.toNat)
  generalize writeLocation loc (off.toNat - off.toNat) 4 v { s with issuer := h } = t at hwrite hparams hreturned hread
  rw [← hparams] at hg hrow
  exact ⟨t, _, hwrite, performAccess_read_register hg hrow hread, congrArg (· ++ [_]) hreturned⟩

/-- Settles O44: the registers by their rows of the map, each read as the field it stands for. -/
theorem registersReadBack : Obligations.RegistersReadBack := by
  refine ⟨?_, by decide, fun s h g off v hh hg ho => ?_⟩
  · intro s h hh returns
    have reads {off v : Word} (loc : Location) (rights : Rights)
        (hrow : (⟨loc, off.toNat, 4, true, rights⟩ : MapEntry) ∈ hostMap s.params) (hv : readRegister s loc = some v) :
        returns off v := performAccess_read_register hh hrow hv
    exact ⟨⟨_, reads .status .ro (by simp [hostMap]) rfl, statusWord_fields s⟩,
      ⟨_, reads .suffix .rw (by simp [hostMap]) rfl, suffixWord_fields s⟩,
      reads .cmd .rw (by simp [hostMap]) rfl, reads .keyidx .rw (by simp [hostMap]) rfl,
      reads .keyused .ro (by simp [hostMap]) rfl, reads .rate .rw (by simp [hostMap]) rfl,
      reads .capacity .rw (by simp [hostMap]) rfl, reads .inlen .rw (by simp [hostMap]) rfl,
      reads .outlen .rw (by simp [hostMap]) rfl, reads .ibufsize .ro (by simp [hostMap]) rfl,
      reads .obufsize .ro (by simp [hostMap]) rfl⟩
  · simp only [List.mem_cons, List.not_mem_nil, or_false] at ho
    obtain rfl | rfl | rfl | rfl | rfl | rfl := ho
    · exact register_reads_back .keyidx hh hg (by simp [hostMap]) (by decide) fun _ _ => rfl
    · exact register_reads_back .rate hh hg (by simp [hostMap]) (by decide) fun _ _ => rfl
    · exact register_reads_back .capacity hh hg (by simp [hostMap]) (by decide) fun _ _ => rfl
    · refine register_reads_back .suffix hh hg (by simp [hostMap]) (by decide) fun _ _ => ?_
      rw [if_pos rfl, and_low_byte, ← zeros_append_byte]
      rfl
    · exact register_reads_back .inlen hh hg (by simp [hostMap]) (by decide) fun _ _ => rfl
    · exact register_reads_back .outlen hh hg (by simp [hostMap]) (by decide) fun _ _ => rfl

end Sys2Proof.Machine
end

section
/-! The buffers through the host port: what a Write stores and a Read returns (20_memory.md R82 to R88). -/

namespace Sys2Proof.Machine

open Sys2Proof.Reference

/-! Writes of buffers. -/

/-- The buffers that a host may write (10_state.md R32). -/
def writableBuffers (p : Params) : List MapEntry :=
  [⟨.block, 0x100, 16, false, .rw⟩, ⟨.kstate, 0x400, 200, false, .rw⟩, ⟨.ibuf, 0x10000, p.ibufBytes, false, .rw⟩,
   ⟨.obuf, 0x20000, p.obufBytes, false, .rw⟩]

theorem mem_writableBuffers {p : Params} {e : MapEntry} (he : e ∈ hostMap p) (hreg : e.isRegister = false)
    (hrights : e.rights = .rw) : e ∈ writableBuffers p := by
  have hfilter : e ∈ (hostMap p).filter fun e => !e.isRegister && e.rights == .rw :=
    List.mem_filter.mpr ⟨he, by simp [hreg, hrights]⟩
  exact hfilter

/-- A byte of a fixed-size buffer after the bytes of a value are written inside it. -/
theorem writeVector_leBytes_getElem? {m k n : Nat} (x : Vector Byte m) (v : Word) (j : Nat) (hfits : k + n ≤ m) :
    (writeVector x k (leBytes v n))[j]? = if k ≤ j ∧ j < k + n then some (byteAt v (j - k)) else x[j]? := by
  rw [writeVector_getElem?, leBytes_length]
  by_cases hj : k ≤ j ∧ j < k + n
  · rw [if_pos (by omega), if_pos hj, leBytes_getElem?, if_pos (by omega)]
  · rw [if_neg (by omega), if_neg hj]

/-- A byte of a sparse buffer after the bytes of a value are written. -/
theorem Memory.read_writeBytes_leBytes (m : Memory) (k n j : Nat) (v : Word) :
    Memory.read (Memory.writeBytes m k (leBytes v n)) j =
      if k ≤ j ∧ j < k + n then some (byteAt v (j - k)) else Memory.read m j := by
  rw [Memory.read_writeBytes, leBytes_length]
  by_cases hj : k ≤ j ∧ j < k + n
  · rw [if_pos hj, if_pos hj, leBytes_getElem?, if_pos (by omega)]
  · rw [if_neg hj, if_neg hj]

/-- Every byte of every buffer after a Write inside a buffer. -/
theorem readBufferByte_writeLocation {p : Params} {e : MapEntry} {k n : Nat} (he : e ∈ writableBuffers p)
    (hfits : k + n ≤ e.size) (v : Word) (s : State) (loc : Location) (j : Nat) :
    readBufferByte (writeLocation e.loc k n v s) loc j =
      if loc = e.loc ∧ k ≤ j ∧ j < k + n then some (byteAt v (j - k)) else readBufferByte s loc j := by
  simp only [writableBuffers, List.mem_cons, List.not_mem_nil, or_false] at he
  obtain rfl | rfl | rfl | rfl := he <;> cases loc <;>
    simp [readBufferByte, writeLocation, writeVector_leBytes_getElem? _ _ _ hfits, Memory.read_writeBytes_leBytes]

/-- A Write of a buffer changes the buffers alone. -/
theorem writeLocation_buffer_frame {p : Params} {e : MapEntry} (he : e ∈ writableBuffers p) (k n : Nat) (v : Word)
    (s : State) :
    ∃ t, writeLocation e.loc k n v s = t ∧
      t = { s with block := t.block, kstate := t.kstate, ibuf := t.ibuf, obuf := t.obuf } := by
  simp only [writableBuffers, List.mem_cons, List.not_mem_nil, or_false] at he
  obtain rfl | rfl | rfl | rfl := he <;> exact ⟨_, rfl, rfl⟩

/-- What a Write that passes the checks and reaches a buffer does, byte by byte. -/
theorem performAccess_write_buffer {s : State} {h n : Nat} {off : Word} {e : MapEntry} (v : Word)
    (hh : h < s.params.numHosts) (hc : checkAccess s.params .write off n = .ok e) (hreg : e.isRegister = false) :
    ∃ t : State, performAccess ⟨h, .write, off, n, v⟩ s = .next t ∧
      t = { s with issuer := h, block := t.block, kstate := t.kstate, ibuf := t.ibuf, obuf := t.obuf } ∧
      ∀ (loc : Location) (j : Nat), readBufferByte t loc j =
        if loc = e.loc ∧ off.toNat - e.base ≤ j ∧ j < off.toNat - e.base + n then
          some (byteAt v (j - (off.toNat - e.base)))
        else readBufferByte s loc j := by
  obtain ⟨hmem, -, -, hlow, hhigh, -, hrights⟩ := checkAccess_ok hc
  have he := mem_writableBuffers hmem hreg (hrights rfl)
  have hloc : e.loc ≠ .cmd := by
    have hall : ∀ e ∈ writableBuffers s.params, e.loc ≠ .cmd := by simp [writableBuffers]
    exact hall e he
  obtain ⟨t, ht, hframe⟩ := writeLocation_buffer_frame he (off.toNat - e.base) n v { s with issuer := h }
  refine ⟨t, ht ▸ performAccess_write hh hc hloc, hframe, fun loc j => ?_⟩
  rw [← ht, readBufferByte_writeLocation he (by omega), readBufferByte_issuer]

/-- Settles O45: the Write reaches a writable buffer, after which every byte of every buffer is known. -/
theorem bufferWriteChangesOnlyItsBytes : Obligations.BufferWriteChangesOnlyItsBytes := by
  rintro s ⟨h, kind, off, n, v⟩ e hh rfl hc hreg
  obtain ⟨t, hstep, hframe, hbytes⟩ := performAccess_write_buffer v hh hc hreg
  refine ⟨t, hstep, hframe, fun k hk => ?_, fun loc j hj => ?_⟩
  · rw [hbytes, if_pos ⟨rfl, by omega, by omega⟩, Nat.add_sub_cancel_left, byteAt]
  · rw [hbytes, if_neg hj]

/-! Reads of buffers. -/

theorem readRegister_buffer {p : Params} {e : MapEntry} (s : State) (he : e ∈ hostMap p) (hreg : e.isRegister = false) :
    readRegister s e.loc = none := by
  have hall : ∀ e ∈ hostMap p, e.isRegister = false → readRegister s e.loc = none := by simp [hostMap, readRegister]
  exact hall e he hreg

/-- A Read that passes the checks and reaches a buffer returns the value of its bytes, all of which are written. -/
theorem performAccess_read_bytes {s : State} {h n : Nat} {off w : Word} {e : MapEntry} {bs : List Byte}
    (hh : h < s.params.numHosts) (hc : checkAccess s.params .read off n = .ok e) (hreg : e.isRegister = false)
    (hlen : bs.length = n) (hbs : ∀ j, j < n → readBufferByte s e.loc (off.toNat - e.base + j) = bs[j]?) :
    performAccess ⟨h, .read, off, n, w⟩ s =
      .next { s with issuer := h, returned := s.returned ++ [⟨h, off, n, leValue 32 bs⟩] } := by
  obtain ⟨hmem, -⟩ := checkAccess_ok hc
  exact performAccess_read_returns hh hc (readLocation_written (readRegister_buffer s hmem hreg) hlen hbs)

/-- Where a 4-byte Write passes the checks, so does a Read of each of its bytes, at the same row. -/
theorem checkAccess_read_byte {p : Params} {kind : AccessKind} {off : Word} {e : MapEntry} {k : Nat}
    (hc : checkAccess p kind off 4 = .ok e) (hreg : e.isRegister = false) (hk : k < 4) :
    (off + BitVec.ofNat 32 k).toNat = off.toNat + k ∧ checkAccess p .read (off + BitVec.ofNat 32 k) 1 = .ok e := by
  obtain ⟨-, -, ho, hlow, hhigh, -⟩ := checkAccess_ok hc
  have hoff : (off + BitVec.ofNat 32 k).toNat = off.toNat + k := by
    rw [BitVec.toNat_add, BitVec.toNat_ofNat]
    omega
  have hl : locate p (off + BitVec.ofNat 32 k).toNat = some e :=
    locate_of_le (locate_of_checkAccess_ok hc) (by omega) (covers_iff.mpr (by omega))
  exact ⟨hoff, checkAccess_ok_of_located hl (.inl rfl) (Nat.mod_one _) (by omega) (by simp [hreg]) (by simp)⟩

/-- Settles O46: a Read of the word or of one of its bytes passes the checks where the Write did, and returns what it stored. -/
theorem wordWriteIsLittleEndian : Obligations.WordWriteIsLittleEndian := by
  intro s h off v e hh hc hreg
  obtain ⟨t, hwrite, hframe, hbytes⟩ := performAccess_write_buffer v hh hc hreg
  have hparams : t.params = s.params := by rw [hframe]
  have hreturned : t.returned = s.returned := by rw [hframe]
  have hbyte {k : Nat} (hk : k < 4) : readBufferByte t e.loc (off.toNat - e.base + k) = some (byteAt v k) := by
    rw [hbytes, if_pos ⟨rfl, by omega, by omega⟩, Nat.add_sub_cancel_left]
  rw [← hparams] at hh hc
  obtain ⟨-, -, ho, hlow, hhigh, -⟩ := checkAccess_ok hc
  have hcheck : checkAccess t.params .read off 4 = .ok e :=
    checkAccess_ok_of_located (locate_of_checkAccess_ok hc) (.inr rfl) ho hhigh (by simp [hreg]) (by simp)
  have hword := performAccess_read_bytes (w := 0) (bs := leBytes v 4) hh hcheck hreg (leBytes_length v 4) fun j hj => by
    rw [hbyte hj, leBytes_getElem?, if_pos hj]
  rw [leValue_leBytes] at hword
  refine ⟨t, _, hwrite, fun k hk => ?_, hword, congrArg (· ++ [_]) hreturned⟩
  obtain ⟨hoff, hcheck8⟩ := checkAccess_read_byte hc hreg hk
  have hread8 := performAccess_read_bytes (w := 0) (bs := [byteAt v k]) hh hcheck8 hreg rfl fun j hj => by
    rw [hoff, Nat.lt_one_iff.mp hj, Nat.add_zero, Nat.sub_add_comm hlow, hbyte hk]
    rfl
  rw [leValue_byteAt] at hread8
  exact ⟨_, hread8, congrArg (· ++ [_]) hreturned⟩

end Sys2Proof.Machine
end

section
/-! Reads of whole rows: every byte and word of the five buffers, columns of BLOCK and lanes of KSTATE (20_memory.md R84 to R88). -/

namespace Sys2Proof.Machine

open Sys2Proof.Reference

/-- With legal parameters the map ends at 0x30000 at the latest (10_state.md R32). -/
theorem hostMap_end_le {p : Params} {e : MapEntry} (hp : p.WellFormed) (he : e ∈ hostMap p) :
    e.base + e.size ≤ 0x30000 := by
  obtain ⟨hibuf, -, hobuf, -⟩ := hp
  have hall : ∀ e ∈ hostMap p, e.base + e.size ≤ 0x30000 := by
    simp [hostMap]
    omega
  exact hall e he

/-- A byte or aligned word inside a buffer that the map places is read there. Only OBUF's place asks for legal parameters. -/
theorem performAccess_read_row {s : State} {h k n : Nat} {e : MapEntry} {bs : List Byte} (w : Word)
    (hh : h < s.params.numHosts) (he : e ∈ hostMap s.params) (hreg : e.isRegister = false)
    (hend : e.base + e.size ≤ 2 ^ 32) (hobuf : e.loc = .obuf → s.params.WellFormed) (hn : n = 1 ∨ (n = 4 ∧ k % 4 = 0))
    (hfits : k + n ≤ e.size) (hlen : bs.length = n) (hbs : ∀ j, j < n → readBufferByte s e.loc (k + j) = bs[j]?) :
    performAccess ⟨h, .read, BitVec.ofNat 32 (e.base + k), n, w⟩ s =
      .next { s with issuer := h, returned := s.returned ++ [⟨h, BitVec.ofNat 32 (e.base + k), n, leValue 32 bs⟩] } := by
  have hoff : (BitVec.ofNat 32 (e.base + k)).toNat = e.base + k := by
    rw [BitVec.toNat_ofNat]
    omega
  have hbase := hostMap_base_aligned he
  have hl : locate s.params (BitVec.ofNat 32 (e.base + k)).toNat = some e :=
    locate_of_covers he (covers_iff.mpr (by omega)) hobuf
  have halign : (BitVec.ofNat 32 (e.base + k)).toNat % n = 0 := by
    obtain rfl | ⟨rfl, hk⟩ := hn
    · exact Nat.mod_one _
    · omega
  have hc : checkAccess s.params .read (BitVec.ofNat 32 (e.base + k)) n = .ok e :=
    checkAccess_ok_of_located hl (by omega) halign (by omega) (by simp [hreg]) (by simp)
  refine performAccess_read_bytes hh hc hreg hlen fun j hj => ?_
  rw [hoff, Nat.add_sub_cancel_left, hbs j hj]

/-- Each buffer is a row of the map, with the bytes that the host port reads there. -/
theorem buffers_row {s : State} {b : Buffer} (hb : b ∈ buffers s) :
    ∃ e ∈ hostMap s.params, e.isRegister = false ∧ e.base = b.base ∧ e.size = b.size ∧
      ∀ k, readBufferByte s e.loc k = b.byte k := by
  simp only [buffers, List.mem_cons, List.not_mem_nil, or_false] at hb
  obtain rfl | rfl | rfl | rfl | rfl := hb
  · exact ⟨⟨.block, 0x100, 16, false, .rw⟩, by simp [hostMap], rfl, rfl, rfl, fun _ => rfl⟩
  · exact ⟨⟨.ksched, 0x200, 176, false, .ro⟩, by simp [hostMap], rfl, rfl, rfl, fun _ => rfl⟩
  · exact ⟨⟨.kstate, 0x400, 200, false, .rw⟩, by simp [hostMap], rfl, rfl, rfl, fun _ => rfl⟩
  · exact ⟨⟨.ibuf, 0x10000, s.params.ibufBytes, false, .rw⟩, by simp [hostMap], rfl, rfl, rfl, fun _ => rfl⟩
  · exact ⟨⟨.obuf, 0x20000, s.params.obufBytes, false, .rw⟩, by simp [hostMap], rfl, rfl, rfl, fun _ => rfl⟩

/-- A word of BLOCK is a column with row 0 lowest (20_memory.md R87). -/
theorem performAccess_read_column {s : State} {h : Nat} (hh : h < s.params.numHosts) (c : Fin 4) :
    performAccess (read32 h (BitVec.ofNat 32 (0x100 + 4 * c.val))) s =
      .next { s with issuer := h, returned := s.returned ++ [⟨h, BitVec.ofNat 32 (0x100 + 4 * c.val), 4,
        cell s.block 3 c ++ cell s.block 2 c ++ cell s.block 1 c ++ cell s.block 0 c⟩] } := by
  rw [← leValue_four]
  refine performAccess_read_row (e := ⟨.block, 0x100, 16, false, .rw⟩) 0 hh (by simp [hostMap]) rfl (by decide) (by simp)
    (.inr ⟨rfl, by omega⟩) (show 4 * c.val + 4 ≤ 16 by omega) rfl fun j hj => ?_
  have hbyte : s.block[4 * c.val + j]? = some (cell s.block ⟨j, hj⟩ c) := Vector.getElem?_eq_getElem (by omega)
  refine hbyte.trans ?_
  obtain rfl | rfl | rfl | rfl : j = 0 ∨ j = 1 ∨ j = 2 ∨ j = 3 := by omega
  all_goals rfl

/-- The eight bytes of lane (x, y) (10_state.md R43). -/
def laneBytes (s : KeccakState) (x y : Fin 5) : List Byte :=
  (List.finRange 8).map fun k => s[8 * (x.val + 5 * y.val) + k.val]

theorem lane_lanesOf (s : KeccakState) (x y : Fin 5) : lane (lanesOf s) x y = leValue 64 (laneBytes s x y) := by
  rw [lanesOf, lane_ofLanes, laneBytes]

theorem laneBytes_getElem? (s : KeccakState) (x y : Fin 5) {k : Nat} (hk : k < 8) :
    (laneBytes s x y)[k]? = s[8 * (x.val + 5 * y.val) + k]? := by
  rw [Vector.getElem?_eq_getElem (by omega), laneBytes, List.getElem?_map, List.getElem?_eq_getElem (by simpa using hk)]
  simp

/-- A word of KSTATE is half a lane, the low half first (20_memory.md R88). -/
theorem performAccess_read_half_lane {s : State} {h m : Nat} (hh : h < s.params.numHosts) (x y : Fin 5)
    (hm : m = 0 ∨ m = 4) :
    performAccess (read32 h (BitVec.ofNat 32 (0x400 + (8 * (x.val + 5 * y.val) + m)))) s =
      .next { s with issuer := h, returned := s.returned ++ [⟨h, BitVec.ofNat 32 (0x400 + (8 * (x.val + 5 * y.val) + m)), 4,
        (lane (lanesOf s.kstate) x y).extractLsb' (8 * m) 32⟩] } := by
  rw [lane_lanesOf, leValue_extract_word _ (by omega)]
  refine performAccess_read_row (e := ⟨.kstate, 0x400, 200, false, .rw⟩) 0 hh (by simp [hostMap]) rfl (by decide) (by simp)
    (.inr ⟨rfl, by omega⟩) (show 8 * (x.val + 5 * y.val) + m + 4 ≤ 200 by omega) ?_ fun j hj => ?_
  · simp [laneBytes]
    omega
  · rw [List.getElem?_take, if_pos hj, List.getElem?_drop, laneBytes_getElem? _ _ _ (by omega), ← Nat.add_assoc]
    rfl

/-- Settles O47: a buffer is a row of the map; the bytes of a value are those of the row it was put together from. -/
theorem readsReturnBufferBytes : Obligations.ReadsReturnBufferBytes := by
  intro s h hh answer
  refine ⟨fun hp b hb k n unused bytes hn hfits hlen hbytes => ?_, fun c => performAccess_read_column hh c,
    fun x y => ⟨?_, ?_⟩⟩
  · obtain ⟨e, he, hreg, hbase, hsize, hbyte⟩ := buffers_row hb
    have hend := hostMap_end_le hp he
    have hread := performAccess_read_row unused hh he hreg (by omega) (fun _ => hp) hn (hsize ▸ hfits) hlen
      fun j hj => (hbyte _).trans (hbytes j hj)
    rw [hbase] at hread
    exact ⟨_, hread, hlen ▸ leValue_toNat_lt 32 bytes, fun j hj => byteAt_leValue (by omega) (by omega)⟩
  · exact performAccess_read_half_lane (m := 0) hh x y (.inl rfl)
  · have hhigh := performAccess_read_half_lane hh x y (.inr rfl)
    rwa [show 0x400 + (8 * (x.val + 5 * y.val) + 4) = 0x404 + 8 * (x.val + 5 * y.val) by omega] at hhigh

end Sys2Proof.Machine
end

section
/-! Where a step stops, and what no access undoes (20_memory.md R99, 60_exceptions.md R357). -/

namespace Sys2Proof.Machine

open Sys2Proof.Reference

/-! Commands that stop (44_sponge.md R309). -/

/-- A sponge command has its message's length from INLEN. -/
theorem spongeOperands_length {v : Word} {s : State} {o : SpongeOperands} (ho : spongeOperands v s = some o) :
    o.length = s.inlen.toNat := by
  unfold spongeOperands at ho
  split_ifs at ho <;> cases ho <;> rfl

/-- A message that cannot be gathered has its first unwritten byte at the index named (44_sponge.md R309). -/
theorem message_error {s : State} {n k : Nat} (h : message s n = .error k) :
    k < n ∧ Memory.read s.ibuf k = none ∧ ∀ j, j < k → Memory.read s.ibuf j ≠ none := by
  obtain ⟨bs, hg, -⟩ | ⟨i, hg, -, hlt, hunwritten, hfirst⟩ := Memory.gather_cases s.ibuf n 0
  · cases h.symm.trans hg
  · cases h.symm.trans hg
    exact ⟨by omega, hunwritten, fun j hj => hfirst j (Nat.zero_le j) hj⟩

/-- A performed word answers a next state, or it is a sponge command's word to which no failure applies and its message has an
unwritten byte. -/
theorem perform_next_or_fault (v : Word) (s : State) :
    (∃ t, perform v s = .next t) ∨
    (v ∈ ([0x11, 0x20, 0x21, 0x22, 0x23, 0x24, 0x25] : List Word) ∧ firstFailure v s = none ∧
      ∃ k, message s s.inlen.toNat = .error k ∧ perform v s = .fault (.unwritten s.issuer 0 k)) := by
  obtain ⟨i, hd, hp⟩ | ⟨-, hp⟩ | ⟨-, hp⟩ := perform_cases v s
  · obtain rfl := eq_encode_of_decode hd
    rw [hp]
    obtain ⟨hi, o, ho⟩ | ⟨-, -, hnext⟩ := spongeOperands_cases i s
    · rw [exec_of_spongeOperands ho]
      obtain ⟨-, h⟩ | ⟨-, -, h⟩ | ⟨-, -, -, h⟩ | ⟨-, -, -, -, h⟩ | ⟨hpass, k, hm, h⟩ | ⟨-, msg, -, h⟩ :=
        spongeCommand_cases o.rate o.capacity o.suffix o.length o.outLength (opcode i) s
      · exact .inl ⟨_, h⟩
      · exact .inl ⟨_, h⟩
      · exact .inl ⟨_, h⟩
      · exact .inl ⟨_, h⟩
      · have hnone : firstFailure (encode i) s = none := by
          rw [firstFailure_encode, ho, Option.bind_some, checksFailure_eq_none_iff]
          exact hpass
        have hword : encode i ∈ spongeCommands.map encode := List.mem_map_of_mem hi
        exact .inr ⟨hword, hnone, k, spongeOperands_length ho ▸ hm, h⟩
      · exact .inl ⟨_, h⟩
    · exact .inl hnext
  · exact .inl ⟨_, hp⟩
  · exact .inl ⟨_, hp⟩

/-! Accesses that stop. -/

/-- All an access can do: be refused for its host, answer a next state, or stop in a Read or in a command. -/
theorem performAccess_cases (a : Access) (s : State) :
    (s.params.numHosts ≤ a.host ∧ performAccess a s = .refused (.noSuchHost a.host)) ∨
    (∃ t, performAccess a s = .next t) ∨
    (a.host < s.params.numHosts ∧ a.kind = .read ∧ performAccess a s = .fault (.unwritten a.host a.off a.n) ∧
      ∃ e, checkAccess s.params .read a.off a.n = .ok e ∧ readLocation s e.loc (a.off.toNat - e.base) a.n = none) ∨
    (a.host < s.params.numHosts ∧ a.kind = .write ∧
      performAccess a s = perform a.value { s with issuer := a.host, cmd := a.value } ∧
      ∃ e, checkAccess s.params .write a.off a.n = .ok e ∧ e.loc = .cmd) := by
  obtain ⟨host, kind, off, n, v⟩ := a
  by_cases hh : host < s.params.numHosts
  · cases hc : checkAccess s.params kind off n with
    | error r => exact .inr (.inl ⟨_, performAccess_refused hh hc⟩)
    | ok e =>
      cases kind with
      | read =>
        cases hv : readLocation s e.loc (off.toNat - e.base) n with
        | some w => exact .inr (.inl ⟨_, performAccess_read_returns hh hc hv⟩)
        | none => exact .inr (.inr (.inl ⟨hh, rfl, performAccess_read_faults hh hc hv, e, hc, hv⟩))
      | write =>
        by_cases hloc : e.loc = .cmd
        · exact .inr (.inr (.inr ⟨hh, rfl, performAccess_write_command hh hc hloc, e, hc, hloc⟩))
        · exact .inr (.inl ⟨_, performAccess_write hh hc hloc⟩)
  · exact .inl ⟨Nat.le_of_not_lt hh, performAccess_no_such_host (Nat.le_of_not_lt hh)⟩

/-- The bytes that a Read can find unwritten lie in IBUF and OBUF. -/
theorem readLocation_none_row {s : State} {kind : AccessKind} {off : Word} {n : Nat} {e : MapEntry}
    (hc : checkAccess s.params kind off n = .ok e) (hv : readLocation s e.loc (off.toNat - e.base) n = none) :
    ∃ k, k < n ∧ ((e.loc = .ibuf ∧ Memory.read s.ibuf (off.toNat - 0x10000 + k) = none) ∨
      (e.loc = .obuf ∧ Memory.read s.obuf (off.toNat - 0x20000 + k) = none)) := by
  obtain ⟨hreg, k, hk, hnone⟩ := readLocation_eq_none_iff.mp hv
  refine ⟨k, hk, ?_⟩
  have written {size : Nat} (x : Vector Byte size) (hfits : off.toNat - e.base + n ≤ size) :
      x[off.toNat - e.base + k]? ≠ none := by
    rw [ne_eq, Vector.getElem?_eq_none_iff]
    omega
  cases hloc : e.loc with
  | block =>
    obtain ⟨-, -, hfits⟩ := checkAccess_in_row ⟨.block, 0x100, 16, false, .rw⟩ hc (by simp [hostMap]) hloc
    rw [hloc] at hnone
    exact absurd hnone (written s.block hfits)
  | ksched =>
    obtain ⟨-, -, hfits⟩ := checkAccess_in_row ⟨.ksched, 0x200, 176, false, .ro⟩ hc (by simp [hostMap]) hloc
    rw [hloc] at hnone
    exact absurd hnone (written s.ksched hfits)
  | kstate =>
    obtain ⟨-, -, hfits⟩ := checkAccess_in_row ⟨.kstate, 0x400, 200, false, .rw⟩ hc (by simp [hostMap]) hloc
    rw [hloc] at hnone
    exact absurd hnone (written s.kstate hfits)
  | ibuf =>
    obtain rfl := checkAccess_row (f := ⟨.ibuf, 0x10000, s.params.ibufBytes, false, .rw⟩) hc (by simp [hostMap]) hloc
    exact .inl ⟨rfl, hnone⟩
  | obuf =>
    obtain rfl := checkAccess_row (f := ⟨.obuf, 0x20000, s.params.obufBytes, false, .rw⟩) hc (by simp [hostMap]) hloc
    exact .inr ⟨rfl, hnone⟩
  | _ =>
    rw [hloc] at hreg
    cases hreg

/-- The one refusal is of an access by a host context that does not exist. -/
theorem performAccess_refused_host {a : Access} {s : State} {r : Refusal} (h : performAccess a s = .refused r) :
    s.params.numHosts ≤ a.host ∧ r = .noSuchHost a.host := by
  obtain ⟨hh, h'⟩ | ⟨t, h'⟩ | ⟨-, -, h', -⟩ | ⟨-, -, h', -⟩ := performAccess_cases a s <;> rw [h'] at h
  · cases h
    exact ⟨hh, rfl⟩
  · cases h
  · cases h
  · obtain ⟨t, hp⟩ | ⟨-, -, k, -, hp⟩ := perform_next_or_fault a.value { s with issuer := a.host, cmd := a.value } <;>
      rw [hp] at h <;> cases h

/-- A Write that reaches CMD is 4 bytes wide at offset 0. -/
theorem checkAccess_reaches_cmd {p : Params} {kind : AccessKind} {off : Word} {n : Nat} {e : MapEntry}
    (hc : checkAccess p kind off n = .ok e) (hloc : e.loc = .cmd) : off = 0x000 ∧ n = 4 := by
  have hrow : (⟨.cmd, 0x000, 4, true, .rw⟩ : MapEntry) ∈ hostMap p := by simp [hostMap]
  obtain ⟨-, -, -, -, -, hreg, -⟩ := checkAccess_ok hc
  exact ⟨checkAccess_register_off hc hrow hloc, hreg (checkAccess_row hc hrow hloc ▸ rfl)⟩

/-- Settles O49: an idle step and a reset have a next state; an access is refused for its host alone, and its two faults are of a
Read and of a sponge command's word. -/
theorem stepStopsOnlyWhereDeclared : Obligations.StepStopsOnlyWhereDeclared := by
  intro s
  match hi : s.inputs with
  | [] => simp [step_idle hi]
  | .reset :: rest => simp [step_reset hi]
  | .access a :: rest =>
    rw [step_access hi]
    refine ⟨fun r h => ⟨a, rest, rfl, performAccess_refused_host (s := { s with inputs := rest }) h⟩,
      fun f h => ⟨a, rest, rfl, ?_⟩⟩
    obtain ⟨-, h'⟩ | ⟨t, h'⟩ | ⟨hh, hk, h', e, hc, hv⟩ | ⟨hh, hk, h', e, hc, hloc⟩ :=
      performAccess_cases a { s with inputs := rest } <;> rw [h'] at h
    · cases h
    · cases h
    · cases h
      obtain ⟨k, hkn, hbyte⟩ := readLocation_none_row (s := { s with inputs := rest }) hc hv
      exact ⟨hh, .inl ⟨hk, rfl, e, k, hc, hkn, hbyte⟩⟩
    · obtain ⟨t, hp⟩ | ⟨hword, hnone, k, hm, hp⟩ :=
        perform_next_or_fault a.value { s with inputs := rest, issuer := a.host, cmd := a.value } <;> rw [hp] at h <;> cases h
      obtain ⟨hoff, hn⟩ := checkAccess_reaches_cmd hc hloc
      obtain ⟨hlt, hunwritten, hfirst⟩ := message_error hm
      exact ⟨hh, .inr ⟨hk, hoff, hn, hword, hnone, k, hlt, hunwritten, hfirst, rfl⟩⟩

/-! Written bytes stay written (20_memory.md R99). -/

/-- Every written byte of IBUF and of OBUF in `s` is written in `t`. -/
def KeepsWritten (s t : State) : Prop :=
  ∀ k, (Memory.read s.ibuf k ≠ none → Memory.read t.ibuf k ≠ none) ∧
    (Memory.read s.obuf k ≠ none → Memory.read t.obuf k ≠ none)

/-- A state with the same two buffers keeps them written. -/
theorem KeepsWritten.of_eq {s t : State} (hibuf : t.ibuf = s.ibuf) (hobuf : t.obuf = s.obuf) : KeepsWritten s t := by
  intro k
  rw [hibuf, hobuf]
  exact ⟨id, id⟩

theorem writeLocation_keepsWritten (loc : Location) (k n : Nat) (v : Word) (s : State) :
    KeepsWritten s (writeLocation loc k n v s) := by
  cases loc with
  | ibuf => exact fun j => ⟨Memory.writeBytes_keeps_written _ _ _ _, id⟩
  | obuf => exact fun j => ⟨id, Memory.writeBytes_keeps_written _ _ _ _⟩
  | _ => exact KeepsWritten.of_eq rfl rfl

theorem exec_keepsWritten {i : Instr} {s t : State} (h : exec i s = .next t) : KeepsWritten s t := by
  obtain ⟨-, b, -, rfl⟩ | ⟨-, rfl⟩ | ⟨-, rt, cp, sf, len, hsponge⟩ := exec_next h
  · exact KeepsWritten.of_eq rfl rfl
  · exact KeepsWritten.of_eq rfl rfl
  · obtain ⟨c, -, rfl⟩ | ⟨-, msg, -, rfl⟩ := spongeCommand_next hsponge
    · exact KeepsWritten.of_eq rfl rfl
    · exact fun j => ⟨id, Memory.writeBytes_keeps_written _ _ _ _⟩

theorem perform_keepsWritten {v : Word} {s t : State} (h : perform v s = .next t) : KeepsWritten s t := by
  obtain ⟨i, -, hp⟩ | ⟨-, hp⟩ | ⟨-, hp⟩ := perform_cases v s <;> rw [hp] at h
  · exact exec_keepsWritten h
  · cases h
    exact KeepsWritten.of_eq rfl rfl
  · cases h
    exact KeepsWritten.of_eq rfl rfl

/-- Settles O58: a Write adds bytes to a buffer, a sponge command adds bytes to OBUF, and nothing else writes either. -/
theorem onlyResetUnwritesBytes : Obligations.OnlyResetUnwritesBytes := by
  intro s t a k h
  rw [step_offer_access] at h
  obtain ⟨-, ⟨r, -, rfl⟩ | ⟨-, e, v, -, -, rfl⟩ | ⟨-, e, -, -, rfl⟩ | ⟨-, e, -, -, hp⟩⟩ := performAccess_next h
  · exact KeepsWritten.of_eq rfl rfl k
  · exact KeepsWritten.of_eq rfl rfl k
  · exact writeLocation_keepsWritten _ _ _ _ { s with issuer := a.host } k
  · exact perform_keepsWritten hp k

end Sys2Proof.Machine
end

section
/-! The command encoding: words and the commands they select, or the failure they report (30_encoding.md R120 to R124). -/

namespace Sys2Proof.Machine

open Sys2Proof.Reference

/-- The opcodes of the map are distinct, so each finds its own row. -/
theorem decodeOpcode_opcode (i : Instr) : decodeOpcode (opcode i) = .ok i := by
  cases i <;> rfl

@[simp] theorem reservedField_encode (i : Instr) : reservedField (encode i) = 0 :=
  BitVec.extractLsb'_append_eq_left

@[simp] theorem opcodeField_encode (i : Instr) : opcodeField (encode i) = opcode i :=
  BitVec.extractLsb'_append_eq_right

theorem decode_encode (i : Instr) : decode (encode i) = .ok i := by
  simp [decode, decodeOpcode_opcode]

/-- Settles O1: a word is its two fields, which a successful decode fixes; the opcodes of the map are distinct. -/
theorem decodeAgreesWithEncode : Obligations.DecodeAgreesWithEncode := by
  intro v i
  constructor
  · exact eq_encode_of_decode
  · rintro rfl
    exact decode_encode i

/-- Settles O2: each word of the table is the encoding of its command. -/
theorem tableWordsDecode : Obligations.TableWordsDecode :=
  ⟨decode_encode .expandkey, decode_encode .encrypt, decode_encode .decrypt, decode_encode .keccakf, decode_encode .keccak,
    decode_encode .shake128, decode_encode .shake256, decode_encode .sha3_224, decode_encode .sha3_256,
    decode_encode .sha3_384, decode_encode .sha3_512⟩

/-- A reserved bit fails the decode, whatever the opcode (30_encoding.md R123). -/
theorem decode_reserved {v : Word} (h : reservedField v ≠ 0) : decode v = .error .reserved := by
  rw [decode, if_pos h]

/-- The reserved bits of a word below 256 are 0 (30_encoding.md R120). -/
theorem reservedField_eq_zero {v : Word} (h : v.toNat < 256) : reservedField v = 0 := by
  apply BitVec.eq_of_toNat_eq
  rw [reservedField, BitVec.extractLsb'_toNat, Nat.shiftRight_eq_div_pow, Nat.div_eq_of_lt h]
  rfl

/-- An opcode that is no command's meets none of the rows of the map. -/
theorem decodeOpcode_undefined {op : Byte} (h : ∀ i, op ≠ opcode i) : decodeOpcode op = .error .undefinedOpcode :=
  if_neg (h .expandkey) |>.trans <| if_neg (h .encrypt) |>.trans <| if_neg (h .decrypt) |>.trans <|
    if_neg (h .keccakf) |>.trans <| if_neg (h .keccak) |>.trans <| if_neg (h .shake128) |>.trans <|
    if_neg (h .shake256) |>.trans <| if_neg (h .sha3_224) |>.trans <| if_neg (h .sha3_256) |>.trans <|
    if_neg (h .sha3_384) |>.trans <| if_neg (h .sha3_512)

/-- A word with its reserved bits 0 and an opcode outside the map is undefined: with a command's opcode it would be that
command's word, whose opcode is in the map (30_encoding.md R124). -/
theorem decode_undefined {v : Word} (hsmall : v.toNat < 256) (hundefined : v.toNat ∉ definedOpcodes) :
    decode v = .error .undefinedOpcode := by
  have hdecode : decode v = decodeOpcode (opcodeField v) := by
    rw [decode, if_neg (not_not.mpr (reservedField_eq_zero hsmall))]
  refine hdecode.trans (decodeOpcode_undefined fun i hi => hundefined ?_)
  obtain rfl : v = encode i := eq_encode_of_decode (by rw [hdecode, hi, decodeOpcode_opcode])
  obtain ⟨-, hdefined⟩ := encode_defined i
  exact hdefined

/-- Settles O3: such a word fails the decode, and performing it is the STATUS update of its failure. -/
theorem reservedAndUndefinedWordsWriteStatusOnly : Obligations.ReservedAndUndefinedWordsWriteStatusOnly := by
  refine ⟨⟨rfl, fun s v hv => ?_⟩, rfl, fun s v hv => ?_⟩
  · rw [perform, decode_reserved hv]
    rfl
  · have hundefined : v.toNat ∉ definedOpcodes := by
      simp only [definedOpcodes, List.mem_cons, List.not_mem_nil, or_false]
      omega
    rw [perform, decode_undefined (by omega) hundefined]
    rfl

end Sys2Proof.Machine
end

section
/-! What the pseudo-instruction LOADBLK leaves: four word Writes of BLOCK, in order (30_encoding.md R128, 20_memory.md R87). -/

namespace Sys2Proof.Machine

/-- The bytes of the value of a row are the row. -/
theorem leBytes_leValue {w : Nat} {bs : List Byte} (hw : 8 * bs.length ≤ w) : leBytes (leValue w bs) bs.length = bs := by
  refine List.ext_getElem? fun j => ?_
  rw [leBytes_getElem?]
  split
  · exact (byteAt_leValue ‹_› hw).symm
  · rw [List.getElem?_eq_none (by omega)]

/-- Writing one row of bytes and then the next is writing both at once. -/
theorem writeVector_append {n : Nat} (x : Vector Byte n) (k : Nat) (bs cs : List Byte) :
    writeVector x k (bs ++ cs) = writeVector (writeVector x k bs) (k + bs.length) cs := by
  induction bs generalizing x k with
  | nil => rfl
  | cons b bs ih =>
    rw [List.cons_append, writeVector, ih, writeVector, List.length_cons, Nat.add_assoc, Nat.add_comm 1]

/-- Writing all bytes of a buffer forgets those it had. -/
theorem writeVector_toList {n : Nat} (x y : Vector Byte n) : writeVector x 0 y.toList = y := by
  refine Vector.ext fun j hj => ?_
  have hbyte : (writeVector x 0 y.toList)[j]? = y[j]? := by
    rw [writeVector_getElem?, if_pos (by simpa using hj)]
    simp
  simpa [hj] using hbyte

/-- A block is its four rows of four bytes. -/
theorem block_toList (b : Block) :
    b.toList = [b[0], b[1], b[2], b[3]] ++ [b[4], b[5], b[6], b[7]] ++ [b[8], b[9], b[10], b[11]] ++
      [b[12], b[13], b[14], b[15]] := by
  refine List.ext_getElem (by simp) fun j hj _ => ?_
  rw [Vector.length_toList] at hj
  rw [Vector.getElem_toList]
  interval_cases j <;> rfl

theorem run_succ_of_step {s t : State} (k : Nat) (h : step s = .next t) :
    Host.Core.run Sys2Proof.core (k + 1) s = Host.Core.run Sys2Proof.core k t := by
  have hcore : Sys2Proof.core.step s = .next t := h
  simp only [Host.Core.run, hcore]

/-- The state once a host context has written a row of bytes to the start of BLOCK, with the inputs then pending. -/
def State.withBlockRow (host : Nat) (rest : List Input) (bs : List Byte) (s : State) : State :=
  { s with inputs := rest, issuer := host, block := writeVector s.block 0 bs }

/-- A step whose input is a word Write inside BLOCK stores the word's four bytes there (20_memory.md R83). -/
theorem step_write32_block {s : State} {h k : Nat} {off : Word} {bs : List Byte} {rest : List Input}
    (hh : h < s.params.numHosts) (hc : checkAccess s.params .write off 4 = .ok ⟨.block, 0x100, 16, false, .rw⟩)
    (hoff : off.toNat = 0x100 + k) (hlen : bs.length = 4)
    (hin : s.inputs = .access (write32 h off (leValue 32 bs)) :: rest) :
    step s = .next { s with inputs := rest, issuer := h, block := writeVector s.block k bs } := by
  have hbytes : leBytes (leValue 32 bs) 4 = bs := hlen ▸ leBytes_leValue (by omega)
  rw [step_access hin, write32, performAccess_write (s := { s with inputs := rest }) hh hc (by decide)]
  simp only [writeLocation, hoff, Nat.add_sub_cancel_left, hbytes]

/-- A word Write of BLOCK right behind a row written to its start lengthens that row. -/
theorem step_withBlockRow {s : State} {h : Nat} {off : Word} {bs cs : List Byte} {rest : List Input}
    (hh : h < s.params.numHosts) (hc : checkAccess s.params .write off 4 = .ok ⟨.block, 0x100, 16, false, .rw⟩)
    (hoff : off.toNat = 0x100 + bs.length) (hlen : cs.length = 4) :
    step (s.withBlockRow h (.access (write32 h off (leValue 32 cs)) :: rest) bs) =
      .next (s.withBlockRow h rest (bs ++ cs)) := by
  rw [step_write32_block (s := s.withBlockRow h _ bs) hh hc hoff hlen rfl]
  simp only [State.withBlockRow, writeVector_append, Nat.zero_add]

/-- Settles O60: four Writes, each right behind the one before, together write the sixteen bytes of BLOCK. -/
theorem loadblkLoadsBlockInOrder : Obligations.LoadblkLoadsBlockInOrder := by
  intro s h b hh hin
  have hblock : s.withBlockRow h [] b.toList = { s with inputs := [], issuer := h, block := b } := by
    rw [State.withBlockRow, writeVector_toList]
  rw [← hblock, block_toList]
  calc Host.Core.run Sys2Proof.core 4 s
    _ = _ := run_succ_of_step (t := s.withBlockRow h _ _) 3 (step_write32_block hh rfl rfl rfl hin)
    _ = _ := run_succ_of_step 2 (step_withBlockRow hh rfl rfl rfl)
    _ = _ := run_succ_of_step 1 (step_withBlockRow hh rfl rfl rfl)
    _ = _ := run_succ_of_step 0 (step_withBlockRow hh rfl rfl rfl)

end Sys2Proof.Machine
end

section
/-! The AES primitives against FIPS-197: doubling, the substitution tables, the fused passes and the column mixes, which are
powers of one circulant matrix (40_aes_primitives.md R151 to R164). -/

namespace Sys2Proof.Machine

open Sys2Proof.Reference

/-! Doubling (40_aes_primitives.md R151). -/

theorem byte_msb_iff (b : Byte) : b.getLsbD 7 = true ↔ 128 ≤ b.toNat := by
  have hmsb : b.getLsbD 7 = decide (128 ≤ b.toNat) := (BitVec.msb_eq_getLsbD_last b).symm.trans (BitVec.msb_eq_decide b)
  rw [hmsb, decide_eq_true_iff]

/-- Reducing by 0x11B a doubling that leaves the byte is dropping bit 8 and adding 0x1B. -/
theorem xor_reduction {n : Nat} (h : 256 ≤ n) (hn : n < 512) : n ^^^ 0x11B = n % 256 ^^^ 0x1B := by
  have hlow : (n ^^^ 0x11B) % 2 ^ 8 = n % 256 ^^^ 0x1B := Nat.xor_mod_two_pow
  have hhigh : (n ^^^ 0x11B) / 2 ^ 8 = 0 := by
    have hone : n / 2 ^ 8 = 1 := by omega
    rw [Nat.xor_div_two_pow, hone]
    rfl
  omega

theorem xtime_toNat (b : Byte) :
    (xtime b).toNat = if b.toNat < 128 then 2 * b.toNat else (2 * b.toNat) ^^^ 0x11B := by
  have hshift : (b <<< 1).toNat = 2 * b.toNat % 256 := by
    rw [BitVec.toNat_shiftLeft, Nat.shiftLeft_eq, Nat.mul_comm]
  have hb : b.toNat < 256 := b.isLt
  rw [xtime, BitVec.toNat_xor, hshift]
  split
  case isTrue hmsb =>
    have hge := (byte_msb_iff b).mp hmsb
    rw [if_neg (by omega), xor_reduction (by omega) (by omega)]
    rfl
  case isFalse hmsb =>
    have hlt : b.toNat < 128 := by
      rw [byte_msb_iff] at hmsb
      omega
    rw [if_pos hlt, Nat.mod_eq_of_lt (by omega)]
    exact Nat.xor_zero _

/-- Settles O9: the doubling of a byte below 128 fits the byte, any other is reduced; the corner cases are computed. -/
theorem xtimeIsDoubling : Obligations.XtimeIsDoubling :=
  ⟨xtime_toNat, by decide⟩

/-! The substitution tables (40_aes_primitives.md R153, R154). -/

/-- The inverse of the S-box's affine map. -/
def sboxAffineInv (b : Byte) : Byte := b.rotateLeft 1 ^^^ b.rotateLeft 3 ^^^ b.rotateLeft 6 ^^^ 0x05

theorem sboxAffine_sboxAffineInv (b : Byte) : sboxAffine (sboxAffineInv b) = b := by
  revert b
  decide +kernel

/-- Taking the affine map off an entry of SBOX leaves the inverse of the index in GF(2^8): the table, entry by entry. -/
theorem gfMul_sboxAffineInv_sbox (b : Byte) (hb : b ≠ 0) : gfMul b (sboxAffineInv (sbox b)) = 1 := by
  revert b
  decide +kernel

theorem invSbox_sbox : Function.LeftInverse invSbox sbox := by
  unfold Function.LeftInverse
  decide +kernel

/-- A left inverse on a finite type is a right inverse. -/
theorem sbox_invSbox : Function.RightInverse invSbox sbox :=
  invSbox_sbox.rightInverse_of_card_le le_rfl

/-- Settles O10: the inverse of a byte is its entry with the affine map taken off, which the tables are checked for. -/
theorem substitutionTablesAreFipsTables : Obligations.SubstitutionTablesAreFipsTables := by
  refine ⟨fun b => ⟨sboxAffineInv (sbox b), ?_, (sboxAffine_sboxAffineInv _).symm⟩,
    fun b => ⟨invSbox_sbox b, sbox_invSbox b⟩, by decide⟩
  split
  case isTrue hzero =>
    subst hzero
    decide
  case isFalse hne => exact gfMul_sboxAffineInv_sbox b hne

/-! The FIPS-197 steps, cell by cell (40_aes_primitives.md R157 to R160). -/

@[simp] theorem cell_subBytes (s : Block) (r c : Fin 4) : cell (subBytes s) r c = sbox (cell s r c) := by
  simp [cell, subBytes]

@[simp] theorem cell_invSubBytes (s : Block) (r c : Fin 4) : cell (invSubBytes s) r c = invSbox (cell s r c) := by
  simp [cell, invSubBytes]

@[simp] theorem cell_shiftRows (s : Block) (r c : Fin 4) : cell (shiftRows s) r c = cell s r (c + r) :=
  cell_ofCells _ r c

@[simp] theorem cell_invShiftRows (s : Block) (r c : Fin 4) : cell (invShiftRows s) r c = cell s r (c - r) :=
  cell_ofCells _ r c

theorem fwdPass_eq_steps (s k : Block) : fwdPass s k = shiftRows (subBytes (addRoundKey s k)) :=
  block_ext_cells fun r c => by
    rw [cell_fwdPass, cell_shiftRows, cell_subBytes, cell_addRoundKey]

theorem invPass_eq_steps (s k : Block) : invPass s k = addRoundKey (invSubBytes (invShiftRows s)) k :=
  block_ext_cells fun r c => by
    rw [cell_invPass, cell_addRoundKey, cell_invSubBytes, cell_invShiftRows]

/-- Settles O11: both sides of each equation have the same cells. -/
theorem fusedPassesAreFipsSteps : Obligations.FusedPassesAreFipsSteps :=
  fun s k => ⟨fwdPass_eq_steps s k, invPass_eq_steps s k⟩

/-! The column mixes (40_aes_primitives.md R161 to R163). With `byte_xor_left_comm`, the cancelling of equal terms brings a sum
of bytes to a normal form; the cells are generalized first, since the ordering compares their terms again and again. -/

theorem byte_xor_self_left (a b : Byte) : a ^^^ (a ^^^ b) = b := by
  rw [← BitVec.xor_assoc, BitVec.xor_self, BitVec.zero_xor]

/-- The products by the entries of the circulants, as sums of doublings. -/
theorem gfMul_entries (a : Byte) :
    gfMul a 0x00 = 0#8 ∧ gfMul a 0x01 = a ∧ gfMul a 0x02 = xtime a ∧ gfMul a 0x03 = a ^^^ xtime a ∧ gfMul a 0x04 = x4 a ∧
    gfMul a 0x05 = a ^^^ x4 a ∧ gfMul a 0x09 = a ^^^ xtime (x4 a) ∧ gfMul a 0x0b = a ^^^ xtime a ^^^ xtime (x4 a) ∧
    gfMul a 0x0d = a ^^^ x4 a ^^^ xtime (x4 a) ∧ gfMul a 0x0e = xtime a ^^^ x4 a ^^^ xtime (x4 a) := by
  simp [gfMul, List.range, List.range.loop, x4]

theorem cell_circulant (m0 m1 m2 m3 : Byte) (s : Block) (j c : Fin 4) :
    cell (circulant m0 m1 m2 m3 s) j c =
      gfMul (cell s j c) m0 ^^^ gfMul (cell s (j + 1) c) m1 ^^^ gfMul (cell s (j + 2) c) m2 ^^^
        gfMul (cell s (j + 3) c) m3 := by
  rw [circulant, cell_ofCells]

/-- The sum of the bytes of a column. -/
def columnSum (s : Block) (c : Fin 4) : Byte := cell s 0 c ^^^ cell s 1 c ^^^ cell s 2 c ^^^ cell s 3 c

/-- The sum of a column may be counted from any of its rows. -/
theorem columnSum_from (s : Block) (j c : Fin 4) :
    columnSum s c = cell s j c ^^^ cell s (j + 1) c ^^^ cell s (j + 2) c ^^^ cell s (j + 3) c := by
  match j with
  | 0 => rfl
  | 1 | 2 | 3 =>
    simp only [columnSum, Fin.reduceAdd]
    ac_rfl

theorem cell_mixColumns_sum (s : Block) (j c : Fin 4) :
    cell (mixColumns s) j c = cell s j c ^^^ xtime (cell s j c ^^^ cell s (j + 1) c) ^^^ columnSum s c :=
  cell_mixColumns s j c

/-- The doubled differences of neighbouring bytes of a column add up to 0. -/
theorem columnSum_mixColumns (s : Block) (c : Fin 4) : columnSum (mixColumns s) c = columnSum s c := by
  rw [columnSum]
  simp only [cell_mixColumns_sum, xtime_xor, Fin.reduceAdd, zero_add]
  rw [columnSum]
  generalize cell s 0 c = a, cell s 1 c = b, cell s 2 c = d, cell s 3 c = e
  simp only [BitVec.xor_assoc, BitVec.xor_comm, byte_xor_left_comm, byte_xor_self_left, BitVec.xor_self, BitVec.xor_zero]

/-- InvPre adds to row j what it adds to row j + 2. -/
theorem cell_invPre_rows (s : Block) (j c : Fin 4) :
    cell (invPre s) j c = cell s j c ^^^ x4 (cell s j c ^^^ cell s (j + 2) c) := by
  rw [cell_invPre]
  fin_cases j <;> simp [BitVec.xor_comm]

/-- The polynomial of InvPre is the square of that of MixColumns: the second pass adds the column sum again, so that both
leave it out, and doubles the differences that the first has doubled. -/
theorem invPre_eq_mixColumns_mixColumns (s : Block) : invPre s = mixColumns (mixColumns s) :=
  block_ext_cells fun j c => by
    rw [cell_mixColumns_sum, columnSum_mixColumns]
    simp only [cell_invPre_rows, cell_mixColumns_sum, xtime_xor, x4, add_assoc, Fin.reduceAdd]
    generalize cell s j c = a, cell s (j + 1) c = b, cell s (j + 2) c = d
    simp only [BitVec.xor_assoc, BitVec.xor_comm, byte_xor_left_comm, byte_xor_self_left]

/-- The two sums under x4 are the same, since what the first pass adds to row j it adds to row j + 2. -/
theorem invPre_invPre (s : Block) : invPre (invPre s) = s :=
  block_ext_cells fun j c => by
    simp only [cell_invPre_rows, x4_xor, add_assoc, Fin.reduceAdd, add_zero]
    generalize cell s j c = a, cell s (j + 2) c = b
    simp only [BitVec.xor_assoc, BitVec.xor_comm, byte_xor_left_comm, byte_xor_self_left, BitVec.xor_self, BitVec.xor_zero]

theorem mixColumns_eq_circulant (s : Block) : mixColumns s = circulant 0x02 0x03 0x01 0x01 s :=
  block_ext_cells fun j c => by
    rw [cell_mixColumns_sum, columnSum_from s j c]
    simp only [cell_circulant, gfMul_entries, xtime_xor]
    generalize cell s j c = a, cell s (j + 1) c = b, cell s (j + 2) c = d, cell s (j + 3) c = e
    simp only [BitVec.xor_assoc, BitVec.xor_comm, byte_xor_left_comm, byte_xor_self_left]

theorem invPre_eq_circulant (s : Block) : invPre s = circulant 0x05 0x00 0x04 0x00 s :=
  block_ext_cells fun j c => by
    simp only [cell_invPre_rows, cell_circulant, gfMul_entries, x4_xor, BitVec.xor_assoc, BitVec.xor_zero]

theorem columnSum_invPre (s : Block) (c : Fin 4) : columnSum (invPre s) c = columnSum s c := by
  rw [invPre_eq_mixColumns_mixColumns, columnSum_mixColumns, columnSum_mixColumns]

theorem invMixColumns_eq_circulant (s : Block) : invMixColumns s = circulant 0x0e 0x0b 0x0d 0x09 s :=
  block_ext_cells fun j c => by
    rw [invMixColumns, cell_mixColumns_sum, columnSum_invPre, columnSum_from s j c]
    simp only [cell_invPre_rows, cell_circulant, gfMul_entries, x4_xor, xtime_xor, add_assoc, Fin.reduceAdd]
    generalize cell s j c = a, cell s (j + 1) c = b, cell s (j + 2) c = d, cell s (j + 3) c = e
    simp only [BitVec.xor_assoc, BitVec.xor_comm, byte_xor_left_comm, byte_xor_self_left]

/-- The fourth power of MixColumns is the square of InvPre. -/
theorem mixColumns_four (s : Block) : mixColumns (mixColumns (mixColumns (mixColumns s))) = s := by
  simpa only [invPre_eq_mixColumns_mixColumns] using invPre_invPre s

theorem invMixColumns_eq_mixColumns_three (s : Block) : invMixColumns s = mixColumns (mixColumns (mixColumns s)) := by
  rw [invMixColumns, invPre_eq_mixColumns_mixColumns]

theorem invMixColumns_mixColumns (s : Block) : invMixColumns (mixColumns s) = s := by
  rw [invMixColumns_eq_mixColumns_three, mixColumns_four]

theorem mixColumns_invMixColumns (s : Block) : mixColumns (invMixColumns s) = s := by
  rw [invMixColumns_eq_mixColumns_three, mixColumns_four]

/-- Settles O12: the circulants cell by cell; InvMixColumns is the cube of MixColumns, whose fourth power is the identity. -/
theorem columnMixesAreCirculantProducts : Obligations.ColumnMixesAreCirculantProducts :=
  fun s => ⟨mixColumns_eq_circulant s, invPre_eq_circulant s, invMixColumns_eq_circulant s, invMixColumns_mixColumns s,
    mixColumns_invMixColumns s⟩

end Sys2Proof.Machine
end

section
/-! The AES key schedule: the words of R201's loop, then the bytes of the schedule (41_aes_key_schedule.md R201, R203). -/

namespace Sys2Proof.Machine

open Sys2Proof.Reference

/-! One turn of the loop appends a word and leaves the words before it. -/

@[simp] theorem length_expandStep (ws : List KeyWord) (i : Nat) : (expandStep ws i).length = ws.length + 1 := by
  simp [expandStep]

theorem prefix_expandStep (ws : List KeyWord) (i : Nat) : ws <+: expandStep ws i := List.prefix_append ..

theorem wordAt_of_prefix {ws vs : List KeyWord} {i : Nat} (h : ws <+: vs) (hi : i < ws.length) :
    wordAt vs i = wordAt ws i := by
  obtain ⟨tail, rfl⟩ := h
  exact List.getD_append _ _ _ _ hi

/-- What is added at word `i` is read off the words before it. -/
theorem scheduleMask_of_prefix {ws vs : List KeyWord} {i : Nat} (h : ws <+: vs) (hi : i - 1 < ws.length) :
    scheduleMask vs i = scheduleMask ws i := by
  rw [scheduleMask, scheduleMask, wordAt_of_prefix h hi]

theorem wordAt_expandStep_length (ws : List KeyWord) (i : Nat) :
    wordAt (expandStep ws i) ws.length = xorWord (wordAt ws (i - 4)) (scheduleMask ws i) := by
  rw [wordAt, expandStep, List.getD_eq_getElem?_getD, List.getElem?_concat_length, Option.getD_some]

/-! The loop. -/

/-- Every word from word 4 on is the word four back with the mask of R201 added. -/
def FollowsRecurrence (ws : List KeyWord) : Prop :=
  ∀ i, 4 ≤ i → i < ws.length → wordAt ws i = xorWord (wordAt ws (i - 4)) (scheduleMask ws i)

/-- A turn of the loop at the end of the words keeps the recurrence: the words it had are unchanged, and the new one is what
the recurrence asks for. -/
theorem FollowsRecurrence.step {ws : List KeyWord} (h : FollowsRecurrence ws) :
    FollowsRecurrence (expandStep ws ws.length) := by
  intro i hi hlt
  have hpre := prefix_expandStep ws ws.length
  rw [length_expandStep] at hlt
  rw [wordAt_of_prefix hpre (i := i - 4) (by omega), scheduleMask_of_prefix hpre (by omega)]
  obtain hold | rfl : i < ws.length ∨ i = ws.length := by omega
  · rw [wordAt_of_prefix hpre hold]
    exact h i hi hold
  · exact wordAt_expandStep_length ws ws.length

/-- The loop from the end of the words on: `n` words are added behind the words it starts from, and the recurrence is kept. -/
theorem foldl_expandStep (n : Nat) {ws : List KeyWord} (h : FollowsRecurrence ws) :
    ws <+: (List.range' ws.length n).foldl expandStep ws ∧
    ((List.range' ws.length n).foldl expandStep ws).length = ws.length + n ∧
    FollowsRecurrence ((List.range' ws.length n).foldl expandStep ws) := by
  induction n generalizing ws with
  | zero => exact ⟨List.prefix_rfl, rfl, h⟩
  | succ n ih =>
    obtain ⟨hpre, hlength, hrec⟩ := ih h.step
    rw [length_expandStep] at hpre hlength hrec
    rw [List.range'_succ, List.foldl_cons]
    exact ⟨(prefix_expandStep _ _).trans hpre, hlength.trans (by omega), hrec⟩

theorem length_keyWords (key : Block) : (keyWords key).length = 4 := by simp [keyWords]

/-- The words of a schedule: they begin with the key, are 44, and follow the recurrence. -/
theorem scheduleWords_spec (key : Block) :
    keyWords key <+: scheduleWords key ∧ (scheduleWords key).length = 44 ∧ FollowsRecurrence (scheduleWords key) := by
  have hlen := length_keyWords key
  have hkey : FollowsRecurrence (keyWords key) := fun i hi hlt => by omega
  have hloop := foldl_expandStep 40 hkey
  rwa [hlen] at hloop

/-! The bytes of a word. -/

theorem xorWord_getElem (a b : KeyWord) {j : Nat} (hj : j < 4) : (xorWord a b)[j] = a[j] ^^^ b[j] := by
  simp [xorWord]

theorem rotWord_getElem (w : KeyWord) {j : Nat} (hj : j < 4) : (rotWord w)[j] = w[(j + 1) % 4] := by
  match j with
  | 0 | 1 | 2 | 3 => rfl

theorem rconWord_getElem (b : Byte) {j : Nat} (hj : j < 4) :
    (#v[b, 0, 0, 0] : KeyWord)[j] = if j = 0 then b else 0x00 := by
  match j with
  | 0 | 1 | 2 | 3 => rfl

theorem scheduleMask_getElem (ws : List KeyWord) (i : Nat) {j : Nat} (hj : j < 4) :
    (scheduleMask ws i)[j] =
      if i % 4 = 0 then sbox (wordAt ws (i - 1))[(j + 1) % 4] ^^^ (if j = 0 then rcon (i / 4) else 0x00)
      else (wordAt ws (i - 1))[j] := by
  unfold scheduleMask
  split
  case isTrue => rw [xorWord_getElem _ _ hj, subWord, Vector.getElem_map, rotWord_getElem _ hj, rconWord_getElem _ hj]
  case isFalse => rfl

theorem wordAt_keyWords (key : Block) (c : Fin 4) :
    wordAt (keyWords key) c.val = Vector.ofFn fun j : Fin 4 => cell key j c := by
  match c with
  | 0 | 1 | 2 | 3 => rfl

/-! The bytes of a schedule. -/

theorem scheduleByte_eq_getElem (w : Schedule) {k : Nat} (hk : k < 176) : scheduleByte w k = w[k] := by
  rw [scheduleByte, Vector.getElem?_eq_getElem hk, Option.getD_some]

theorem scheduleByte_expandKey (key : Block) {i j : Nat} (hi : i < 44) (hj : j < 4) :
    scheduleByte (expandKey key) (4 * i + j) = (wordAt (scheduleWords key) i)[j] := by
  have hdiv : (4 * i + j) / 4 = i := by omega
  have hmod : (4 * i + j) % 4 = j := by omega
  rw [scheduleByte_eq_getElem _ (by omega)]
  simp only [expandKey, Vector.getElem_ofFn, hdiv, hmod]

/-- The first 16 bytes of a key's schedule are the key. -/
theorem scheduleByte_expandKey_key (key : Block) (i : Fin 16) : scheduleByte (expandKey key) i.val = key[i] := by
  obtain ⟨hpre, -, -⟩ := scheduleWords_spec key
  have hc : i.val / 4 < 4 := by omega
  calc scheduleByte (expandKey key) i.val
    _ = scheduleByte (expandKey key) (4 * (i.val / 4) + i.val % 4) := by rw [Nat.div_add_mod]
    _ = (wordAt (scheduleWords key) (i.val / 4))[i.val % 4] := scheduleByte_expandKey key (by omega) (by omega)
    _ = (wordAt (keyWords key) (i.val / 4))[i.val % 4] := by rw [wordAt_of_prefix hpre (by rwa [length_keyWords])]
    _ = cell key ⟨i.val % 4, by omega⟩ ⟨i.val / 4, hc⟩ := by
      simp only [wordAt_keyWords key ⟨i.val / 4, hc⟩, Vector.getElem_ofFn]
    _ = key[i] := (getElem_eq_cell key i).symm

theorem rcon_succ {i : Nat} (hlo : 1 ≤ i) (hhi : i ≤ 9) : rcon (i + 1) = xtime (rcon i) := by
  have htable : ∀ i < 10, 1 ≤ i → rcon (i + 1) = xtime (rcon i) := by decide
  exact htable i (by omega) hlo

/-- Settles O14: the loop keeps the recurrence of its words, which is read byte by byte. -/
theorem keyScheduleFollowsRecurrence : Obligations.KeyScheduleFollowsRecurrence := by
  refine ⟨⟨rfl, fun i => rcon_succ⟩, fun key => ⟨scheduleByte_expandKey_key key, ?_⟩⟩
  intro i j hlo hhi hj
  obtain ⟨-, hlen, hrec⟩ := scheduleWords_spec key
  rw [scheduleByte_expandKey key (by omega) hj, scheduleByte_expandKey key (by omega) hj,
    scheduleByte_expandKey key (by omega) (Nat.mod_lt _ (by decide)), scheduleByte_expandKey key (by omega) hj,
    hrec i hlo (by omega), xorWord_getElem _ _ hj, scheduleMask_getElem _ _ hj]

theorem roundKey_getElem (w : Schedule) (r : Fin 11) (i : Fin 16) :
    (roundKey w r)[i] = scheduleByte w (16 * r.val + i.val) := by
  rw [scheduleByte_eq_getElem w (by omega), roundKey, Fin.getElem_fin, Vector.getElem_ofFn]

/-- Settles O15: round key 0 is the first 16 bytes of the schedule, which are the key. -/
theorem roundKeysLayOutTheSchedule : Obligations.RoundKeysLayOutTheSchedule := by
  refine ⟨roundKey_getElem, fun key => Vector.ext fun i hi => ?_⟩
  calc (roundKey (expandKey key) 0)[i]
    _ = scheduleByte (expandKey key) (16 * 0 + i) := roundKey_getElem _ 0 ⟨i, hi⟩
    _ = scheduleByte (expandKey key) i := by rw [Nat.mul_zero, Nat.zero_add]
    _ = key[i] := scheduleByte_expandKey_key key ⟨i, hi⟩

/-! The key that KEYIDX selects (41_aes_key_schedule.md R200, R204). -/

theorem lookupKey_eq_find? (k : Word) (table : List (Word × Block)) :
    lookupKey k table = (table.find? fun entry => entry.1 = k).map Prod.snd := by
  induction table with
  | nil => rfl
  | cons entry rest ih =>
    rw [lookupKey, List.find?_cons]
    by_cases hk : entry.1 = k
    · simp [hk]
    · simp [hk, ih]

theorem keys_eq_keyAt (p : Params) (k : Word) : keys p k = keyAt p k := by
  rw [keys, keyAt, lookupKey_eq_find?]

/-- ResolveKey gives the index used and the key that R200 selects. -/
theorem selectedKey_resolveKey (p : Params) (k : Word) : SelectedKey p k (resolveKey p k).1 (resolveKey p k).2 := by
  rw [SelectedKey, ← keys_eq_keyAt, resolveKey]
  split
  case h_1 key hkey => exact .inl ⟨hkey, rfl⟩
  case h_2 hnone => exact .inr ⟨hnone, rfl, rfl⟩

theorem resolveKey_zero (p : Params) : resolveKey p 0 = (0, p.defaultKey) := rfl

/-- Settles O13: ResolveKey selects as R200 says, over KEYS read as the first key listed; equal keys give equal schedules. -/
theorem unknownKeyIndexFallsBack : Obligations.UnknownKeyIndexFallsBack := fun p k =>
  ⟨selectedKey_resolveKey p k, resolveKey_zero p, keys_zero_ne_none p, keys_eq_keyAt p k, fun _ => congrArg expandKey⟩

/-- Settles O18: EXPANDKEY expands the key that ResolveKey selects. -/
theorem expandkeyExpandsSelectedKey : Obligations.ExpandkeyExpandsSelectedKey := fun s =>
  ⟨_, _, selectedKey_resolveKey s.params s.keyidx, exec_expandkey s⟩

end Sys2Proof.Machine
end

section
/-! The AES ciphers against FIPS-197, the inverse law, and the commands ENCRYPT and DECRYPT (42_aes_cipher.md R230 to R234). -/

namespace Sys2Proof.Machine

open Sys2Proof.Reference

/-! The rounds that mix columns, apart from the pass with round key 9 (R230, R231). -/

/-- The rounds of Cipher that mix columns; InvCipher's loop takes them in the reverse order. -/
def mixingRounds : List (Fin 11) := [0, 1, 2, 3, 4, 5, 6, 7, 8]

theorem le_of_mem_mixingRounds : ∀ r ∈ mixingRounds, r.val ≤ 8 := by decide

theorem cipherRound_of_le (w : Schedule) (s : Block) {r : Fin 11} (hr : r.val ≤ 8) :
    cipherRound w s r = mixColumns (fwdPass s (roundKey w r)) :=
  if_pos hr

theorem cipher_eq_rounds (s : Block) (w : Schedule) :
    cipher s w = addRoundKey (fwdPass (mixingRounds.foldl (cipherRound w) s) (roundKey w 9)) (roundKey w 10) := rfl

theorem invCipher_eq_rounds (s : Block) (w : Schedule) :
    invCipher s w =
      mixingRounds.reverse.foldl (invCipherRound w) (invPass (addRoundKey s (roundKey w 10)) (roundKey w 9)) := rfl

/-! Agreement with FIPS-197. The fused rounds end with a column mix and the rounds of FIPS-197 with a key addition, or the
other way round, so the two loops are one alternation of steps, cut at different places. -/

/-- One turn of the loop of FIPS-197 Cipher. -/
def fipsCipherRound (w : Schedule) (s : Block) (r : Fin 11) : Block :=
  addRoundKey (circulant 0x02 0x03 0x01 0x01 (shiftRows (subBytes s))) (roundKey w r)

/-- One turn of the loop of FIPS-197 InvCipher. -/
def fipsInvCipherRound (w : Schedule) (s : Block) (r : Fin 11) : Block :=
  circulant 0x0e 0x0b 0x0d 0x09 (addRoundKey (invSubBytes (invShiftRows s)) (roundKey w r))

theorem fipsCipherRound_eq (w : Schedule) (s : Block) (r : Fin 11) :
    fipsCipherRound w s r = addRoundKey (mixColumns (shiftRows (subBytes s))) (roundKey w r) := by
  rw [fipsCipherRound, ← mixColumns_eq_circulant]

theorem fipsInvCipherRound_eq (w : Schedule) (s : Block) (r : Fin 11) :
    fipsInvCipherRound w s r = invMixColumns (invPass s (roundKey w r)) := by
  rw [fipsInvCipherRound, ← invPass_eq_steps, ← invMixColumns_eq_circulant]

theorem fipsCipher_eq_rounds (s : Block) (w : Schedule) :
    fipsCipher s w =
      addRoundKey (shiftRows (subBytes (fipsCipherRound w (([1, 2, 3, 4, 5, 6, 7, 8] : List (Fin 11)).foldl
        (fipsCipherRound w) (addRoundKey s (roundKey w 0))) 9))) (roundKey w 10) := rfl

theorem fipsInvCipher_eq_rounds (s : Block) (w : Schedule) :
    fipsInvCipher s w =
      invPass (([9, 8, 7, 6, 5, 4, 3, 2, 1] : List (Fin 11)).foldl (fipsInvCipherRound w)
        (addRoundKey s (roundKey w 10))) (roundKey w 0) :=
  (invPass_eq_steps _ _).symm

/-- Cipher's rounds, begun at FIPS-197's column mix, end at that column mix. -/
theorem foldl_cipherRound_eq_fips (w : Schedule) (rs : List (Fin 11)) (hrs : ∀ r ∈ rs, r.val ≤ 8) (s : Block) :
    rs.foldl (cipherRound w) (mixColumns (shiftRows (subBytes s))) =
      mixColumns (shiftRows (subBytes (rs.foldl (fipsCipherRound w) s))) := by
  induction rs generalizing s with
  | nil => rfl
  | cons r rs ih =>
    have hround : cipherRound w (mixColumns (shiftRows (subBytes s))) r =
        mixColumns (shiftRows (subBytes (fipsCipherRound w s r))) := by
      rw [cipherRound_of_le w _ (hrs r List.mem_cons_self), fwdPass_eq_steps, fipsCipherRound_eq]
    rw [List.foldl_cons, hround, ih fun q hq => hrs q (List.mem_cons_of_mem r hq), List.foldl_cons]

/-- FIPS-197's inverse rounds, begun at InvCipher's inverse column mix, end at that column mix. -/
theorem foldl_fipsInvCipherRound_eq (w : Schedule) (rs : List (Fin 11)) (s : Block) :
    rs.foldl (fipsInvCipherRound w) (invMixColumns s) = invMixColumns (rs.foldl (invCipherRound w) s) :=
  List.foldl_hom invMixColumns fun t r => fipsInvCipherRound_eq w (invMixColumns t) r

/-- Round 0 reaches FIPS-197's first column mix, and the pass with round key 9 adds the key of FIPS-197's last turn. -/
theorem cipher_eq_fipsCipher (s : Block) (w : Schedule) : cipher s w = fipsCipher s w := by
  have hfirst : cipherRound w s 0 = mixColumns (shiftRows (subBytes (addRoundKey s (roundKey w 0)))) := by
    rw [cipherRound_of_le w s (by decide), fwdPass_eq_steps]
  rw [cipher_eq_rounds, mixingRounds, List.foldl_cons, hfirst, foldl_cipherRound_eq_fips w _ (by decide), fwdPass_eq_steps,
    fipsCipher_eq_rounds, fipsCipherRound_eq]

/-- The first turn of FIPS-197's loop is the pass before InvCipher's loop with the column mix of its first turn, and the pass
after FIPS-197's loop ends InvCipher's last turn. -/
theorem invCipher_eq_fipsInvCipher (s : Block) (w : Schedule) : invCipher s w = fipsInvCipher s w := by
  rw [fipsInvCipher_eq_rounds, List.foldl_cons, fipsInvCipherRound_eq, foldl_fipsInvCipherRound_eq]
  rfl

/-- Settles O16: each loop of fused rounds is the loop of FIPS-197, cut one step later or earlier. -/
theorem ciphersAreFipsCiphers : Obligations.CiphersAreFipsCiphers :=
  fun s w => ⟨cipher_eq_fipsCipher s w, invCipher_eq_fipsInvCipher s w⟩

/-! The inverse law: each step is undone, in the reverse order (R234). -/

theorem addRoundKey_addRoundKey (s k : Block) : addRoundKey (addRoundKey s k) k = s :=
  block_ext_cells fun r c => by
    rw [cell_addRoundKey, cell_addRoundKey, BitVec.xor_assoc, BitVec.xor_self, BitVec.xor_zero]

theorem invPass_fwdPass (s k : Block) : invPass (fwdPass s k) k = s :=
  block_ext_cells fun r c => by
    rw [cell_invPass, cell_fwdPass, sub_add_cancel, invSbox_sbox, BitVec.xor_assoc, BitVec.xor_self, BitVec.xor_zero]

theorem fwdPass_invPass (s k : Block) : fwdPass (invPass s k) k = s :=
  block_ext_cells fun r c => by
    rw [cell_fwdPass, cell_invPass, add_sub_cancel_right, BitVec.xor_assoc, BitVec.xor_self, BitVec.xor_zero, sbox_invSbox]

theorem invCipherRound_cipherRound (w : Schedule) (s : Block) {r : Fin 11} (hr : r.val ≤ 8) :
    invCipherRound w (cipherRound w s r) r = s := by
  rw [cipherRound_of_le w s hr, invCipherRound, invMixColumns_mixColumns, invPass_fwdPass]

theorem cipherRound_invCipherRound (w : Schedule) (s : Block) {r : Fin 11} (hr : r.val ≤ 8) :
    cipherRound w (invCipherRound w s r) r = s := by
  rw [cipherRound_of_le w _ hr, invCipherRound, fwdPass_invPass, mixColumns_invMixColumns]

/-- Turns that undo those of a loop, taken in the reverse order, undo the loop. -/
theorem foldl_reverse_foldl {α β : Type} {f g : β → α → β} {rs : List α}
    (hundo : ∀ r ∈ rs, ∀ b, g (f b r) r = b) (b : β) :
    rs.reverse.foldl g (rs.foldl f b) = b := by
  induction rs generalizing b with
  | nil => rfl
  | cons r rs ih =>
    have hrest := ih (fun q hq => hundo q (List.mem_cons_of_mem r hq)) (f b r)
    rw [List.foldl_cons, List.reverse_cons, List.foldl_append, hrest]
    exact hundo r List.mem_cons_self b

theorem foldl_invCipherRound_foldl_cipherRound (w : Schedule) (s : Block) :
    mixingRounds.reverse.foldl (invCipherRound w) (mixingRounds.foldl (cipherRound w) s) = s :=
  foldl_reverse_foldl (fun r hr t => invCipherRound_cipherRound w t (le_of_mem_mixingRounds r hr)) s

theorem foldl_cipherRound_foldl_invCipherRound (w : Schedule) (s : Block) :
    mixingRounds.foldl (cipherRound w) (mixingRounds.reverse.foldl (invCipherRound w) s) = s :=
  foldl_reverse_foldl (rs := mixingRounds.reverse)
    (fun r hr t => cipherRound_invCipherRound w t (le_of_mem_mixingRounds r (List.mem_reverse.mp hr))) s

theorem invCipher_cipher (s : Block) (w : Schedule) : invCipher (cipher s w) w = s := by
  rw [cipher_eq_rounds, invCipher_eq_rounds, addRoundKey_addRoundKey, invPass_fwdPass,
    foldl_invCipherRound_foldl_cipherRound]

theorem cipher_invCipher (s : Block) (w : Schedule) : cipher (invCipher s w) w = s := by
  rw [cipher_eq_rounds, invCipher_eq_rounds, foldl_cipherRound_foldl_invCipherRound, fwdPass_invPass,
    addRoundKey_addRoundKey]

/-- Settles O17: the outer key addition, the pass with round key 9 and the nine mixing rounds undo each other in turn. -/
theorem invCipherUndoesCipher : Obligations.InvCipherUndoesCipher :=
  fun s w => ⟨invCipher_cipher s w, cipher_invCipher s w⟩

/-! The commands (R232, R233, and R234's law at the command level). -/

/-- Settles O19: ENCRYPT runs Cipher under the key that ResolveKey selects, and Cipher is that of FIPS-197. -/
theorem encryptEncryptsBlock : Obligations.EncryptEncryptsBlock := fun s => by
  refine ⟨_, _, selectedKey_resolveKey s.params s.keyidx, ?_⟩
  rw [exec_encrypt, cipher_eq_fipsCipher]
  rfl

/-- Settles O20: DECRYPT runs InvCipher under the key that ResolveKey selects, and InvCipher is that of FIPS-197. -/
theorem decryptDecryptsBlock : Obligations.DecryptDecryptsBlock := fun s => by
  refine ⟨_, _, selectedKey_resolveKey s.params s.keyidx, ?_⟩
  rw [exec_decrypt, invCipher_eq_fipsInvCipher]
  rfl

/-- Settles O21: both commands resolve KEYIDX to the same key, so DECRYPT undoes Cipher under the schedule of ENCRYPT. -/
theorem decryptRestoresEncryptedBlock : Obligations.DecryptRestoresEncryptedBlock := by
  intro s t t' hencrypt hparams hkeyidx hblock
  rw [exec_encrypt] at hencrypt
  cases hencrypt
  refine ⟨_, exec_decrypt t', ?_⟩
  calc invCipher t'.block (expandKey (resolveKey t'.params t'.keyidx).2)
    _ = invCipher (cipher s.block (expandKey (resolveKey s.params s.keyidx).2))
          (expandKey (resolveKey s.params s.keyidx).2) := by rw [hparams, hkeyidx, hblock]; rfl
    _ = s.block := invCipher_cipher _ _

end Sys2Proof.Machine
end

section
/-! Lanes and bytes (43_keccak_permutation.md R260, 10_state.md R43). -/

namespace Sys2Proof.Machine

theorem lanesOf_getLsbD (s : KeccakState) (x y : Fin 5) {z : Nat} (hz : z < 64) :
    (lane (lanesOf s) x y).getLsbD z = (s[8 * (x.val + 5 * y.val) + z / 8]?.getD 0).getLsbD (z % 8) := by
  rw [lane_lanesOf, leValue_getLsbD _ _ hz, laneBytes_getElem? _ _ _ (by omega)]

theorem bytesOf_getElem (a : Lanes) {i : Nat} (hi : i < 200) : (bytesOf a)[i] = byteAt a[i / 8] (i % 8) := by
  rw [bytesOf, Vector.getElem_ofFn]

theorem bytesOf_lanesOf (s : KeccakState) : bytesOf (lanesOf s) = s := by
  refine Vector.ext fun i hi => ?_
  have hx : i / 8 % 5 < 5 := by omega
  have hy : i / 8 / 5 < 5 := by omega
  have hlane : lane (lanesOf s) ⟨i / 8 % 5, hx⟩ ⟨i / 8 / 5, hy⟩ = (lanesOf s)[i / 8] := by
    simp only [lane, Nat.mod_add_div]
  have hbyte := laneBytes_getElem? s ⟨i / 8 % 5, hx⟩ ⟨i / 8 / 5, hy⟩ (Nat.mod_lt i (by decide : 0 < 8))
  rw [byteAt_leValue (w := 64) (by simp [laneBytes]; omega) (by simp [laneBytes]), ← lane_lanesOf, hlane] at hbyte
  simp only [Nat.mod_add_div, Nat.div_add_mod, Vector.getElem?_eq_getElem hi, Option.some.injEq] at hbyte
  rw [bytesOf_getElem (lanesOf s) hi, hbyte]

theorem lanesOf_bytesOf (a : Lanes) : lanesOf (bytesOf a) = a := by
  refine lanes_ext fun x y => BitVec.eq_of_getLsbD_eq fun z hz => ?_
  have hi : 8 * (x.val + 5 * y.val) + z / 8 < 200 := by omega
  have hdiv : (8 * (x.val + 5 * y.val) + z / 8) / 8 = x.val + 5 * y.val := by omega
  have hbit : 8 * ((8 * (x.val + 5 * y.val) + z / 8) % 8) + z % 8 = z := by omega
  rw [lanesOf_getLsbD _ x y hz, Vector.getElem?_eq_getElem hi, Option.getD_some, bytesOf_getElem a hi, byteAt_getLsbD,
    hbit]
  simp only [hdiv, lane, Nat.mod_lt z (by decide : 0 < 8), decide_true, Bool.true_and]

/-- Settles O22: the bytes of a lane are those it was put together from, and bit `z` stands in byte `z / 8`. -/
theorem lanesAndBytesAreInverse : Obligations.LanesAndBytesAreInverse :=
  ⟨bytesOf_lanesOf, lanesOf_bytesOf, fun s x y _ => lanesOf_getLsbD s x y⟩

end Sys2Proof.Machine
end

section
/-! Rotations of lanes (00_scope.md R13). -/

namespace Sys2Proof.Machine

/-- A bit of a rotated lane, by its index mod 64. -/
theorem rotateLeft_getLsbD (v : Lane) (r : Nat) {z : Nat} (hz : z < 64) :
    (v.rotateLeft r).getLsbD z = v.getLsbD ((z + (64 - r % 64)) % 64) := by
  rw [BitVec.getLsbD_rotateLeft, cond_eq_ite]
  split
  case isTrue h =>
    rw [decide_eq_true_eq] at h
    congr 1
    omega
  case isFalse h =>
    rw [decide_eq_true_eq] at h
    rw [decide_eq_true hz, Bool.true_and]
    congr 1
    omega

theorem rotateLeft_of_mod_eq_zero (v : Lane) {r : Nat} (hr : r % 64 = 0) : v.rotateLeft r = v := by
  refine BitVec.eq_of_getLsbD_eq fun z hz => ?_
  rw [rotateLeft_getLsbD v r hz, hr]
  congr 1
  omega

theorem rotateLeft_xor (u v : Lane) (r : Nat) : (u ^^^ v).rotateLeft r = u.rotateLeft r ^^^ v.rotateLeft r := by
  refine BitVec.eq_of_getLsbD_eq fun z hz => ?_
  simp only [BitVec.getLsbD_xor, rotateLeft_getLsbD _ r hz]

theorem rotateLeft_rotateLeft (v : Lane) (q r : Nat) : (v.rotateLeft q).rotateLeft r = v.rotateLeft (q + r) := by
  refine BitVec.eq_of_getLsbD_eq fun z hz => ?_
  rw [rotateLeft_getLsbD _ r hz, rotateLeft_getLsbD _ q (Nat.mod_lt _ (by decide)), rotateLeft_getLsbD _ _ hz]
  congr 1
  omega

theorem rotateLeft_injective (r : Nat) : Function.Injective fun v : Lane => v.rotateLeft r := by
  refine Function.LeftInverse.injective (g := fun v : Lane => v.rotateLeft (64 - r % 64)) fun v => ?_
  calc (v.rotateLeft r).rotateLeft (64 - r % 64)
    _ = v.rotateLeft (r + (64 - r % 64)) := rotateLeft_rotateLeft v r _
    _ = v := rotateLeft_of_mod_eq_zero v (by omega)

end Sys2Proof.Machine
end

section
/-! The step mappings lane by lane: theta, chi, iota, and the walk of RhoPi against the grid of R263 (43_keccak_permutation.md
R261 to R264, R267). -/

namespace Sys2Proof.Machine

open Sys2Proof.Reference

theorem columnParity_eq_columnXor (a : Lanes) (x : Fin 5) : columnParity a x = columnXor a x := by
  simp [columnParity, columnXor, List.finRange]

@[simp] theorem lane_theta (a : Lanes) (x y : Fin 5) :
    lane (theta a) x y = lane a x y ^^^ (columnXor a (x - 1) ^^^ (columnXor a (x + 1)).rotateLeft 1) := by
  have hx : x + 4 = x - 1 := by revert x; decide
  simp only [theta, lane_ofLanes, Fin.getElem_fin, Vector.getElem_ofFn, columnParity_eq_columnXor, hx]

@[simp] theorem lane_chi (a : Lanes) (x y : Fin 5) :
    lane (chi a) x y = lane a x y ^^^ (~~~lane a (x + 1) y &&& lane a (x + 2) y) := by
  rw [chi, lane_ofLanes]

@[simp] theorem lane_iota (a : Lanes) (rc : Lane) (x y : Fin 5) :
    lane (iota a rc) x y = if x = 0 ∧ y = 0 then lane a x y ^^^ rc else lane a x y := by
  rw [iota, lane_setLane]
  by_cases h : x = 0 ∧ y = 0
  · obtain ⟨rfl, rfl⟩ := h
    rfl
  · rw [if_neg h, if_neg h]

/-- Settles O23: each mapping, read at one lane. -/
theorem stepMappingsByLane : Obligations.StepMappingsByLane :=
  fun a rc x y => ⟨lane_theta a x y, lane_chi a x y, lane_iota a rc x y⟩

/-! RhoPi's walk: after `n` steps the first `n` lanes of the path have moved one position on, each rotated by its offset, and no
other lane has changed (R262). -/

/-- Where RhoPi's walk goes from a position (R262). -/
def nextPosition (p : Fin 5 × Fin 5) : Fin 5 × Fin 5 := (p.2, 2 * p.1 + 3 * p.2)

/-- The position after `n` steps of RhoPi's walk from (1, 0) (R262). -/
def walkPosition : Nat → Fin 5 × Fin 5
  | 0 => (1, 0)
  | n + 1 => nextPosition (walkPosition n)

/-- The rotation of step `t` of RhoPi's walk (R262). -/
def walkOffset (t : Nat) : Nat := ((t + 1) * (t + 2) / 2) % 64

/-- What holds of the walk over the array `a` after `n` steps. -/
structure WalkedFrom (a : Lanes) (n : Nat) (w : Walk) : Prop where
  position : (w.x, w.y) = walkPosition n
  current : w.current = lane a w.x w.y
  moved : ∀ k < n, lane w.b (walkPosition (k + 1)).1 (walkPosition (k + 1)).2 =
    (lane a (walkPosition k).1 (walkPosition k).2).rotateLeft (walkOffset k)
  kept : ∀ p, (∀ k < n, walkPosition (k + 1) ≠ p) → lane w.b p.1 p.2 = lane a p.1 p.2

theorem walkPosition_succ_ne_succ : ∀ n < 24, ∀ k < n, walkPosition (k + 1) ≠ walkPosition (n + 1) := by decide

theorem WalkedFrom.step {a : Lanes} {n : Nat} {w : Walk} (h : WalkedFrom a n w) (hn : n < 24) :
    WalkedFrom a (n + 1) (walkStep w n) := by
  obtain ⟨hposition, hcurrent, hmoved, hkept⟩ := h
  have hnext : (w.y, 2 * w.x + 3 * w.y) = walkPosition (n + 1) := by
    rw [walkPosition, ← hposition, nextPosition]
  have hb (p : Fin 5 × Fin 5) : lane (walkStep w n).b p.1 p.2 =
      if p = walkPosition (n + 1) then w.current.rotateLeft (walkOffset n) else lane w.b p.1 p.2 := by
    simp only [← hnext, Prod.ext_iff]
    exact lane_setLane ..
  refine ⟨hnext, ?_, fun k hk => ?_, fun p hp => ?_⟩
  · have hfresh := hkept (walkPosition (n + 1)) (walkPosition_succ_ne_succ n hn)
    rwa [← hnext] at hfresh
  · rw [hb]
    obtain hk | rfl := Nat.lt_succ_iff_lt_or_eq.mp hk
    · rw [if_neg (walkPosition_succ_ne_succ n hn k hk), hmoved k hk]
    · rw [if_pos rfl, hcurrent, ← hposition]
  · rw [hb, if_neg (hp n (Nat.lt_succ_self n)).symm, hkept p fun k hk => hp k (Nat.lt_succ_of_lt hk)]

theorem walkedFrom_foldl (a : Lanes) (n : Nat) (hn : n ≤ 24) :
    WalkedFrom a n ((List.range n).foldl walkStep { b := a, x := 1, y := 0, current := lane a 1 0 }) := by
  induction n with
  | zero => exact ⟨rfl, rfl, fun k hk => absurd hk (Nat.not_lt_zero k), fun _ _ => rfl⟩
  | succ n ih =>
    rw [List.range_succ, List.foldl_append]
    exact (ih (by omega)).step (by omega)

theorem walkPosition_succ_ne_origin : ∀ k < 24, walkPosition (k + 1) ≠ (0, 0) := by decide

/-- The walk leaves every position but (0, 0), and its offsets are those of R263's grid. -/
theorem exists_walkPosition : ∀ x y : Fin 5, (x, y) ≠ (0, 0) →
    ∃ k < 24, walkPosition k = (x, y) ∧ walkOffset k = rho x y := by decide

theorem walkedFrom_rhoPi (a : Lanes) : ∃ w, WalkedFrom a 24 w ∧ rhoPi a = w.b :=
  ⟨_, walkedFrom_foldl a 24 (Nat.le_refl 24), by rw [rhoPi]⟩

theorem lane_rhoPi (a : Lanes) (x y : Fin 5) :
    lane (rhoPi a) y (2 * x + 3 * y) = (lane a x y).rotateLeft (rho x y) := by
  obtain ⟨w, ⟨-, -, hmoved, hkept⟩, hw⟩ := walkedFrom_rhoPi a
  rw [hw]
  by_cases horigin : (x, y) = (0, 0)
  · obtain ⟨rfl, rfl⟩ := Prod.mk.inj horigin
    exact (hkept (0, 0) walkPosition_succ_ne_origin).trans (rotateLeft_of_mod_eq_zero (lane a 0 0) rfl).symm
  · obtain ⟨k, hk, hposition, hoffset⟩ := exists_walkPosition x y horigin
    have hlane := hmoved k hk
    rwa [walkPosition, hposition, hoffset] at hlane

/-- Settles O24: the walk from (1, 0) moves every lane but (0, 0) one position on, and leaves that one. -/
theorem rhoPiMovesAndRotatesLanes : Obligations.RhoPiMovesAndRotatesLanes := lane_rhoPi

end Sys2Proof.Machine
end

section
/-! KeccakF as 24 rounds of lane formulas with the table of R268, and the command KECCAKF (43_keccak_permutation.md R268 to R271). -/

namespace Sys2Proof.Machine

open Sys2Proof.Reference

theorem theta_eq_thetaByLanes (a : Lanes) : theta a = thetaByLanes a :=
  lanes_ext fun x y => by rw [lane_theta, thetaByLanes, lane_ofLanes]

/-- The position that moves to (u, v) is (u + 3v, u) (R262). -/
theorem nextPosition_preimage : ∀ u v : Fin 5, nextPosition (u + 3 * v, u) = (u, v) := by decide

theorem rhoPi_eq_rhoPiByLanes (a : Lanes) : rhoPi a = rhoPiByLanes a := by
  refine lanes_ext fun u v => ?_
  have hv : 2 * (u + 3 * v) + 3 * u = v := congrArg Prod.snd (nextPosition_preimage u v)
  calc lane (rhoPi a) u v
    _ = lane (rhoPi a) u (2 * (u + 3 * v) + 3 * u) := by rw [hv]
    _ = (lane a (u + 3 * v) u).rotateLeft (rho (u + 3 * v) u) := lane_rhoPi a (u + 3 * v) u
    _ = lane (rhoPiByLanes a) u v := by rw [rhoPiByLanes, lane_ofLanes]

theorem chi_eq_chiByLanes (a : Lanes) : chi a = chiByLanes a := rfl

theorem iota_eq_iotaByLanes (a : Lanes) (rc : Lane) : iota a rc = iotaByLanes a rc :=
  lanes_ext fun x y => by rw [lane_iota, iotaByLanes, lane_ofLanes]

theorem keccakRound_eq_roundByLanes (a : Lanes) (rc : Lane) : keccakRound a rc = roundByLanes a rc := by
  rw [keccakRound, roundByLanes, ← theta_eq_thetaByLanes, ← rhoPi_eq_rhoPiByLanes, ← chi_eq_chiByLanes,
    ← iota_eq_iotaByLanes]

theorem permuteStep_mk (a : Lanes) (r : Byte) :
    permuteStep (a, r) = (keccakRound a (roundConstant r).1, (roundConstant r).2) := rfl

/-- The LFSR feeds the rounds the constants that are drawn from its register one after the other. -/
theorem permute_eq_foldl (n : Nat) (a : Lanes) (r : Byte) :
    (permute n (a, r)).1 = (constantsFrom n r).foldl keccakRound a := by
  induction n generalizing a r with
  | zero => rfl
  | succ n ih => rw [permute_succ, permuteStep_mk, ih, constantsFrom, List.foldl_cons]

theorem constantsFrom_seed : constantsFrom 24 0x01 = roundConstants := by decide +kernel

theorem keccakF_eq_foldl (s : KeccakState) : keccakF s = bytesOf (roundConstants.foldl keccakRound (lanesOf s)) := by
  rw [keccakF, permute_eq_foldl, constantsFrom_seed]

theorem keccakF_eq_keccakFByLanes (s : KeccakState) : keccakF s = keccakFByLanes s := by
  have hround : keccakRound = roundByLanes := funext₂ keccakRound_eq_roundByLanes
  rw [keccakF_eq_foldl, keccakFByLanes, hround]

/-- Settles O25: a round agrees with the lane formulas lane by lane, and the LFSR draws the table. -/
theorem keccakFRunsRoundsOfTable : Obligations.KeccakFRunsRoundsOfTable :=
  ⟨constantsFrom_seed, keccakRound_eq_roundByLanes, keccakF_eq_keccakFByLanes⟩

/-- Settles O27: KECCAKF puts KeccakF of KSTATE in its place and finishes with OK. -/
theorem keccakfPermutesKstate : Obligations.KeccakfPermutesKstate := fun s => by
  rw [exec_keccakf, keccakF_eq_keccakFByLanes]
  rfl

end Sys2Proof.Machine
end

section
/-! KeccakF is a bijection (43_keccak_permutation.md R270): its state space is finite, and every step mapping is injective. -/

namespace Sys2Proof.Machine

open Sys2Proof.Reference

/-! Theta adds the same correction to the lanes of a column, so it acts on the parities of the columns alone. That action is
injective: squared six times, its rotation goes by 64 places, and what is left has an inverse. -/

theorem lane_xor_cancel (u v : Lane) : u ^^^ (u ^^^ v) = v := by
  rw [← BitVec.xor_assoc, BitVec.xor_self, BitVec.zero_xor]

theorem lane_xor_left_comm (u v w : Lane) : u ^^^ (v ^^^ w) = v ^^^ (u ^^^ w) := by ac_rfl

/-- What theta makes of the column parities `c`, for `d = 1` and `r = 1`: each gets those of the columns `d` before and `d` after
it added, the latter rotated by `r`. -/
def mixParities (d : Fin 5) (r : Nat) (c : Fin 5 → Lane) : Fin 5 → Lane := fun x =>
  c x ^^^ (c (x - d) ^^^ (c (x + d)).rotateLeft r)

/-- Squaring doubles both numbers: the terms that occur twice cancel. -/
theorem mixParities_mixParities (d : Fin 5) (r : Nat) (c : Fin 5 → Lane) :
    mixParities d r (mixParities d r c) = mixParities (d + d) (r + r) c := by
  funext x
  have hback : x - (d + d) = x - d - d := (sub_sub x d d).symm
  have hforth : x + (d + d) = x + d + d := (add_assoc x d d).symm
  simp only [mixParities, hback, hforth, sub_add_cancel, add_sub_cancel_right, rotateLeft_xor, rotateLeft_rotateLeft,
    BitVec.xor_assoc, lane_xor_left_comm, lane_xor_cancel]

theorem mixParities_injective_of_double {d : Fin 5} {r : Nat} (h : Function.Injective (mixParities (d + d) (r + r))) :
    Function.Injective (mixParities d r) := fun c e hce =>
  h (by rw [← mixParities_mixParities, hce, mixParities_mixParities])

/-- With the rotation gone, the action on five columns is of order 3, so its square is its inverse. -/
theorem mixParities_64_injective : Function.Injective (mixParities 4 64) := by
  refine Function.LeftInverse.injective (g := mixParities 3 128) fun c => funext fun x => ?_
  have h64 (v : Lane) : v.rotateLeft 64 = v := rotateLeft_of_mod_eq_zero v rfl
  have h128 (v : Lane) : v.rotateLeft 128 = v := rotateLeft_of_mod_eq_zero v rfl
  match x with
  | 0 | 1 | 2 | 3 | 4 =>
    simp only [mixParities, Fin.reduceAdd, Fin.reduceSub, h64, h128, BitVec.xor_assoc, lane_xor_left_comm,
      lane_xor_cancel, BitVec.xor_comm, BitVec.xor_self, BitVec.zero_xor]

theorem mixParities_injective : Function.Injective (mixParities 1 1) := by
  iterate 6 refine mixParities_injective_of_double ?_
  exact mixParities_64_injective

/-- Five equal corrections leave one. -/
theorem xor_five_corrections (p q r s t m : Lane) :
    (p ^^^ m) ^^^ (q ^^^ m) ^^^ (r ^^^ m) ^^^ (s ^^^ m) ^^^ (t ^^^ m) = (p ^^^ q ^^^ r ^^^ s ^^^ t) ^^^ m := by
  simp only [BitVec.xor_assoc, lane_xor_left_comm, lane_xor_cancel]

theorem columnParity_theta (a : Lanes) : columnParity (theta a) = mixParities 1 1 (columnParity a) := by
  funext x
  rw [columnParity]
  simp only [lane_theta, xor_five_corrections, ← columnParity_eq_columnXor]
  rfl

theorem theta_injective : Function.Injective theta := by
  intro a b h
  have hparity : columnParity a = columnParity b :=
    mixParities_injective (by rw [← columnParity_theta, h, columnParity_theta])
  refine lanes_ext fun x y => ?_
  have hlane : lane (theta a) x y = lane (theta b) x y := by rw [h]
  simpa only [lane_theta, ← columnParity_eq_columnXor, hparity, BitVec.xor_left_inj] using hlane

theorem rhoPi_injective : Function.Injective rhoPi := by
  intro a b h
  have hrotated (x y : Fin 5) : (lane a x y).rotateLeft (rho x y) = (lane b x y).rotateLeft (rho x y) := by
    rw [← lane_rhoPi, h, lane_rhoPi]
  exact lanes_ext fun x y => rotateLeft_injective (rho x y) (hrotated x y)

/-! Chi acts on the five bits of a row at one z, and so on 32 values. -/

/-- Chi on one row of bits (R264). -/
def chiRow (p : Fin 5 → Bool) : Fin 5 → Bool := fun x => p x ^^ (!p (x + 1) && p (x + 2))

theorem chiRow_injective : Function.Injective chiRow := by
  have hfour : ∀ p, chiRow (chiRow (chiRow (chiRow p))) = p := by decide
  exact Function.LeftInverse.injective (g := fun p => chiRow (chiRow (chiRow p))) hfour

/-- Bit `z` of the lanes of row `y`. -/
def rowBits (a : Lanes) (y : Fin 5) (z : Nat) : Fin 5 → Bool := fun x => (lane a x y).getLsbD z

theorem rowBits_chi (a : Lanes) (y : Fin 5) {z : Nat} (hz : z < 64) : rowBits (chi a) y z = chiRow (rowBits a y z) := by
  funext x
  simp [rowBits, chiRow, hz]

theorem chi_injective : Function.Injective chi := by
  intro a b h
  refine lanes_ext fun x y => BitVec.eq_of_getLsbD_eq fun z hz => ?_
  have hrow : rowBits a y z = rowBits b y z := chiRow_injective (by rw [← rowBits_chi a y hz, h, rowBits_chi b y hz])
  exact congrFun hrow x

theorem iota_injective (rc : Lane) : Function.Injective fun a => iota a rc := by
  intro a b h
  refine lanes_ext fun x y => ?_
  have hlane : lane (iota a rc) x y = lane (iota b rc) x y := congrArg (lane · x y) h
  rw [lane_iota, lane_iota] at hlane
  split at hlane
  · exact (BitVec.xor_left_inj _).mp hlane
  · exact hlane

theorem keccakRound_injective (rc : Lane) : Function.Injective fun a => keccakRound a rc :=
  (iota_injective rc).comp (chi_injective.comp (rhoPi_injective.comp theta_injective))

theorem foldl_keccakRound_injective (rcs : List Lane) : Function.Injective fun a => rcs.foldl keccakRound a := by
  induction rcs with
  | nil => exact Function.injective_id
  | cons rc rcs ih => exact ih.comp (keccakRound_injective rc)

theorem keccakF_injective : Function.Injective keccakF := by
  have hbytes : Function.Injective bytesOf := Function.LeftInverse.injective lanesOf_bytesOf
  have hlanes : Function.Injective lanesOf := Function.LeftInverse.injective bytesOf_lanesOf
  intro s t h
  rw [keccakF_eq_foldl, keccakF_eq_foldl] at h
  exact hlanes (foldl_keccakRound_injective roundConstants (hbytes h))

theorem finite_keccakState : Finite KeccakState :=
  Finite.of_injective (fun (s : KeccakState) (i : Fin 200) => s[i]) fun _ _ h =>
    Vector.ext fun i hi => congrFun h ⟨i, hi⟩

/-- Settles O26: an injective map of a finite set into itself is a bijection. -/
theorem keccakFIsBijective : Obligations.KeccakFIsBijective :=
  haveI := finite_keccakState
  Finite.injective_iff_bijective.mp keccakF_injective

end Sys2Proof.Machine
end

section
/-! The phases of the sponge: joining, absorbing, padding and squeezing (44_sponge.md R303 to R306). -/

namespace Sys2Proof.Machine

open Sys2Proof.Reference

/-! Joining bytes into the working state. -/

theorem xorInto_getElem (s : KeccakState) (bs : List Byte) (k : Fin 200) :
    (xorInto s bs)[k] = s[k] ^^^ bs.getD k.val 0 := by
  simp only [xorInto, Fin.getElem_fin, Vector.getElem_ofFn, List.getD_eq_getElem?_getD]
  cases bs[k.val]? with
  | none => exact BitVec.xor_zero.symm
  | some b => rfl

theorem xorByte_eq_ofFn (s : KeccakState) (k : Nat) (b : Byte) :
    xorByte s k b = Vector.ofFn fun j : Fin 200 => s[j] ^^^ (if j.val = k then b else 0) := by
  unfold xorByte
  congr 1
  funext j
  split
  · rfl
  · exact BitVec.xor_zero.symm

/-! Absorbing. -/

theorem absorb_of_le {rb : Nat} (s : KeccakState) {msg : List Byte} (hrb : 1 ≤ rb) (h : rb ≤ msg.length) :
    absorb rb s msg = absorb rb (keccakF (xorInto s (msg.take rb))) (msg.drop rb) := by
  rw [absorb, absorb, Nat.div_eq_sub_div hrb h, List.length_drop, absorbChunks]

theorem absorb_of_lt {rb : Nat} (s : KeccakState) {msg : List Byte} (h : msg.length < rb) :
    absorb rb s msg = xorInto s msg := by
  rw [absorb, Nat.div_eq_of_lt h, absorbChunks]

/-- Settles O29: a full chunk at the front is one full chunk of the message's `length / rb`. -/
theorem absorbTakesRateChunks : Obligations.AbsorbTakesRateChunks := fun _ s msg hrb =>
  ⟨absorb_of_le s hrb, absorb_of_lt s, xorInto_getElem s msg⟩

/-! Padding. -/

theorem pad_of_boundary {rb off : Nat} {sf : Byte} (s : KeccakState) (h : sf.getLsbD 7 = true ∧ off = rb - 1) :
    pad rb sf off s = xorByte (keccakF (xorByte s off sf)) (rb - 1) 0x80 := by
  simp only [pad, if_pos h]

theorem pad_of_not_boundary {rb off : Nat} {sf : Byte} (s : KeccakState) (h : ¬(sf.getLsbD 7 = true ∧ off = rb - 1)) :
    pad rb sf off s = xorByte (xorByte s off sf) (rb - 1) 0x80 := by
  simp only [pad, if_neg h]

/-- Settles O30: Pad is two joins of a byte, with a permutation between them at the boundary only. -/
theorem padJoinsSuffixAndTopBit : Obligations.PadJoinsSuffixAndTopBit := by
  intro rb off sf s suffixed last
  have hsuffixed : xorByte s off sf = suffixed := xorByte_eq_ofFn s off sf
  have hlast (t : KeccakState) : xorByte t (rb - 1) 0x80 = last t := xorByte_eq_ofFn t (rb - 1) 0x80
  refine ⟨fun h => ?_, fun h => ?_⟩
  · rw [pad_of_boundary s h, hsuffixed, hlast]
  · rw [pad_of_not_boundary s h, hsuffixed, hlast]

/-! Squeezing. -/

theorem squeezeCopies_of_le {rb len : Nat} (fuel : Nat) (s : KeccakState) (hfuel : len ≤ fuel) (h : len ≤ rb) :
    squeezeCopies rb fuel s len = (s.toList.take len, s) := by
  cases fuel with
  | zero =>
    obtain rfl := Nat.le_zero.mp hfuel
    rfl
  | succ fuel => rw [squeezeCopies, if_pos h]

theorem squeezeCopies_of_lt {rb len : Nat} (fuel : Nat) (s : KeccakState) (h : rb < len) :
    squeezeCopies rb (fuel + 1) s len =
      (s.toList.take rb ++ (squeezeCopies rb fuel (keccakF s) (len - rb)).1,
        (squeezeCopies rb fuel (keccakF s) (len - rb)).2) := by
  rw [squeezeCopies, if_neg (Nat.not_le.mpr h)]

/-- As many turns as output bytes are enough: with more, squeezing answers the same. -/
theorem squeezeCopies_eq_squeeze {rb fuel len : Nat} (s : KeccakState) (hrb : 1 ≤ rb) (hfuel : len ≤ fuel) :
    squeezeCopies rb fuel s len = squeeze rb s len := by
  rw [squeeze]
  induction len using Nat.strong_induction_on generalizing fuel s with
  | _ len ih =>
    obtain h | h := le_or_gt len rb
    · rw [squeezeCopies_of_le fuel s hfuel h, squeezeCopies_of_le len s le_rfl h]
    · obtain ⟨fuel, rfl⟩ : ∃ f, fuel = f + 1 := ⟨fuel - 1, by omega⟩
      obtain ⟨n, rfl⟩ : ∃ n, len = n + 1 := ⟨len - 1, by omega⟩
      have hrest (f : Nat) (hf : n ≤ f) := ih (n + 1 - rb) (by omega) (fuel := f) (keccakF s) (by omega)
      rw [squeezeCopies_of_lt fuel s h, squeezeCopies_of_lt n s h, hrest fuel (by omega), hrest n le_rfl]

theorem squeeze_of_le {rb len : Nat} (s : KeccakState) (h : len ≤ rb) : squeeze rb s len = (s.toList.take len, s) :=
  squeezeCopies_of_le len s le_rfl h

theorem squeeze_of_lt {rb len : Nat} (s : KeccakState) (hrb : 1 ≤ rb) (h : rb < len) :
    squeeze rb s len =
      (s.toList.take rb ++ (squeeze rb (keccakF s) (len - rb)).1, (squeeze rb (keccakF s) (len - rb)).2) := by
  obtain ⟨n, rfl⟩ : ∃ n, len = n + 1 := ⟨len - 1, by omega⟩
  rw [squeeze, squeezeCopies_of_lt n s h, squeezeCopies_eq_squeeze (keccakF s) hrb (by omega)]

theorem squeeze_length {rb : Nat} (s : KeccakState) (len : Nat) (hrb : 1 ≤ rb) (hmax : rb ≤ 200) :
    (squeeze rb s len).1.length = len :=
  squeezeCopies_length rb len s len hrb hmax le_rfl

/-- Settles O31: the equations of squeezing do not speak of the model's bound on its turns. -/
theorem squeezeCopiesRateChunks : Obligations.SqueezeCopiesRateChunks := fun _ s len hrb hmax =>
  ⟨squeeze_of_le s, squeeze_of_lt s hrb, squeeze_length s len hrb hmax⟩

/-- A shorter squeeze stops inside a copy that a longer one takes whole, or at a copy that both take. -/
theorem squeeze_fst_eq_take {rb m n : Nat} (s : KeccakState) (hrb : 1 ≤ rb) (hmax : rb ≤ 200) (hmn : m ≤ n) :
    (squeeze rb s m).1 = (squeeze rb s n).1.take m := by
  induction n using Nat.strong_induction_on generalizing m s with
  | _ n ih =>
    have hcopy : (s.toList.take rb).length = rb := by simp [hmax]
    obtain hn | hn := le_or_gt n rb
    · rw [squeeze_of_le s hn, squeeze_of_le s (hmn.trans hn), List.take_take, Nat.min_eq_left hmn]
    · obtain hm | hm := le_or_gt m rb
      · rw [squeeze_of_lt s hrb hn, squeeze_of_le s hm, List.take_append_of_le_length (hm.trans_eq hcopy.symm),
          List.take_take, Nat.min_eq_left hm]
      · have hrest := ih (n - rb) (by omega) (keccakF s) (Nat.sub_le_sub_right hmn rb)
        rw [squeeze_of_lt s hrb hn, squeeze_of_lt s hrb hm, List.take_append, hcopy, hrest,
          List.take_of_length_le (hcopy.trans_le hm.le)]

/-- The sponge is the composition of its phases (R307). -/
theorem sponge_eq_spongeByPhases (rt : Nat) (sf : Byte) (msg : List Byte) (len : Nat) :
    sponge rt sf msg len = spongeByPhases rt sf msg len := rfl

/-- Settles O32: every output length is squeezed from the one state that the message leaves. -/
theorem shorterOutputIsPrefix : Obligations.ShorterOutputIsPrefix := fun rt sf msg m n hlow hhigh hmn => by
  simp only [sponge_eq_spongeByPhases, spongeByPhases]
  exact squeeze_fst_eq_take (squeezeStart rt sf msg) (by omega) (by omega) hmn

end Sys2Proof.Machine
end

section
/-! The sponge commands: the checks, the message, and what each command leaves (44_sponge.md R300, R309 to R318). -/

namespace Sys2Proof.Machine

open Sys2Proof.Reference

/-! The checks. -/

theorem paramsOk_iff (rt cp : Nat) : paramsOk rt cp = true ↔ rt + cp = 1600 ∧ rt % 8 = 0 := by
  simp only [paramsOk, Bool.and_eq_true, beq_iff_eq]

theorem checksFailure_of_bad_params {rt cp : Nat} (n len : Nat) (p : Params) (h : ¬(rt + cp = 1600 ∧ rt % 8 = 0)) :
    checksFailure rt cp n len p = some .errParams :=
  if_pos (not_and_or.mp h)

theorem checksFailure_zero_rate (n len : Nat) (p : Params) : checksFailure 0 1600 n len p = some .errRateZero := rfl

/-- Settles O28: KECCAK fails the first of its checks that does not pass, and a failure changes STATUS alone. -/
theorem keccakChecksParametersExactly : Obligations.KeccakChecksParametersExactly := by
  refine ⟨paramsOk_iff, by decide, by decide, by decide, by decide, by decide, by decide, fun s => ⟨fun h => ?_, ?_⟩⟩
  · exact spongeCommand_of_checksFailure s.suffix 0x11 (checksFailure_of_bad_params _ _ s.params h)
  · intro hrate hcapacity
    refine spongeCommand_of_checksFailure s.suffix 0x11 ?_
    rw [hrate, hcapacity]
    exact checksFailure_zero_rate _ _ s.params

/-- A command's checks pass when no failure applies to its word. -/
theorem checksPass_of_firstFailure {i : Instr} {s : State} {o : SpongeOperands}
    (ho : spongeOperands (encode i) s = some o) (hnone : firstFailure (encode i) s = none) :
    ChecksPass o.rate o.capacity o.length o.outLength s := by
  rwa [firstFailure_encode, ho, Option.bind_some, checksFailure_eq_none_iff] at hnone

/-! The message. -/

/-- A message has no unwritten byte. -/
theorem read_ne_none_of_isMessage {s : State} {n k : Nat} {msg : List Byte} (h : IsMessage s n msg) (hk : k < n) :
    Memory.read s.ibuf k ≠ none := by
  obtain ⟨hlength, hread⟩ := h
  rw [hread k hk, List.getElem?_eq_getElem (hlength.symm ▸ hk)]
  exact Option.some_ne_none _

theorem isMessage_of_message {s : State} {n : Nat} {msg : List Byte} (h : message s n = .ok msg) : IsMessage s n msg := by
  obtain ⟨hlength, hread⟩ := Memory.gather_ok h
  exact ⟨hlength, fun k hk => by rw [← hread k hk, Nat.zero_add]⟩

/-- There is at most one message. -/
theorem isMessage_unique {s : State} {n : Nat} {msg msg' : List Byte} (h : IsMessage s n msg) (h' : IsMessage s n msg') :
    msg = msg' := by
  obtain ⟨hlength, hread⟩ := h
  obtain ⟨hlength', hread'⟩ := h'
  refine List.ext_getElem? fun k => ?_
  obtain hk | hk := Nat.lt_or_ge k n
  · rw [← hread k hk, hread' k hk]
  · rw [List.getElem?_eq_none (hlength.trans_le hk), List.getElem?_eq_none (hlength'.trans_le hk)]

theorem message_of_isMessage {s : State} {n : Nat} {msg : List Byte} (h : IsMessage s n msg) : message s n = .ok msg := by
  cases hm : message s n with
  | ok msg' => rw [isMessage_unique (isMessage_of_message hm) h]
  | error k =>
    obtain ⟨hk, hunwritten, -⟩ := message_error hm
    exact absurd hunwritten (read_ne_none_of_isMessage h hk)

theorem message_of_written {s : State} {n : Nat} (h : ∀ k, k < n → Memory.read s.ibuf k ≠ none) :
    ∃ msg, message s n = .ok msg :=
  Memory.gather_of_written fun k _ hk => h k (by omega)

/-- The message's first unwritten byte is the one that stops its gathering. -/
theorem message_of_first_unwritten {s : State} {n k : Nat} (hk : k < n) (hunwritten : Memory.read s.ibuf k = none)
    (hfirst : ∀ j, j < k → Memory.read s.ibuf j ≠ none) : message s n = .error k := by
  cases hm : message s n with
  | ok msg => exact absurd hunwritten (read_ne_none_of_isMessage (isMessage_of_message hm) hk)
  | error j =>
    obtain ⟨-, hj, hbefore⟩ := message_error hm
    obtain hlt | rfl | hgt := Nat.lt_trichotomy j k
    · exact absurd hj (hfirst j hlt)
    · rfl
    · exact absurd hunwritten (hbefore k hgt)

/-- The message is gathered from IBUF[0 .. n-1] alone. -/
theorem message_congr {s t : State} {n : Nat} (h : ∀ k, k < n → Memory.read s.ibuf k = Memory.read t.ibuf k) :
    message s n = message t n :=
  Memory.gather_congr fun k _ hk => h k (by omega)

/-! Completing, and stopping at an unwritten byte (R309 to R316). -/

/-- The state a completed sponge command leaves is R309's. -/
theorem spongeResult_spongeState {rt cp n len : Nat} {s : State} (sf : Byte) (msg : List Byte) (op : Byte)
    (hpass : ChecksPass rt cp n len s) : SpongeResult s (spongeState rt sf msg len op s) op rt sf msg len := by
  obtain ⟨hlow, hhigh⟩ := hpass.rate_bounds
  have hlength : (spongeByPhases rt sf msg len).1.length = len := sponge_length rt sf msg len hlow hhigh
  refine ⟨rfl, hlength, fun k => ?_⟩
  rw [spongeState_obuf, sponge_eq_spongeByPhases, Memory.read_writeBytes, hlength]
  simp only [Nat.zero_le, true_and, Nat.zero_add, Nat.sub_zero]

theorem spongeCommand_hashes {rt cp n len : Nat} {s : State} {msg : List Byte} (sf op : Byte)
    (hpass : ChecksPass rt cp n len s) (hm : message s n = .ok msg) :
    ∃ t, spongeCommand rt cp sf n len op s = .next t ∧ SpongeResult s t op rt sf msg len :=
  ⟨_, spongeCommand_completes sf op hpass hm, spongeResult_spongeState sf msg op hpass⟩

/-- Settles O33: KECCAK's checks pass and its message is written. -/
theorem keccakHashesMessage : Obligations.KeccakHashesMessage := by
  intro s hsum hbytes hzero hinlen houtlen hwritten
  obtain ⟨msg, hm⟩ := message_of_written hwritten
  have hrate : s.rate.toNat ≠ 0 := fun h => hzero (BitVec.eq_of_toNat_eq h)
  have hpass : ChecksPass s.rate.toNat s.capacity.toNat s.inlen.toNat s.outlen.toNat s :=
    ⟨(paramsOk_iff _ _).mpr ⟨hsum, hbytes⟩, hrate, hinlen, houtlen⟩
  obtain ⟨t, ht, hresult⟩ := spongeCommand_hashes s.suffix 0x11 hpass hm
  exact ⟨msg, t, isMessage_of_message hm, ht, hresult⟩

/-- Settles O34: the parameters of the two commands pass their checks, and the message is written. -/
theorem shakeCommandsHashMessage : Obligations.ShakeCommandsHashMessage := by
  intro s hinlen houtlen hwritten
  obtain ⟨msg, hm⟩ := message_of_written hwritten
  obtain ⟨t, ht, htresult⟩ := spongeCommand_hashes (rt := 1344) (cp := 256) 0x1F 0x20 ⟨rfl, by decide, hinlen, houtlen⟩ hm
  obtain ⟨u, hu, huresult⟩ := spongeCommand_hashes (rt := 1088) (cp := 512) 0x1F 0x21 ⟨rfl, by decide, hinlen, houtlen⟩ hm
  exact ⟨msg, t, u, isMessage_of_message hm, ht, htresult, hu, huresult⟩

/-- Settles O35: OBUF holds at least 64 bytes, and so each of the four digests. -/
theorem sha3CommandsHashMessage : Obligations.Sha3CommandsHashMessage := by
  intro s ⟨_, hobuf, _, _⟩ hinlen hwritten
  obtain ⟨msg, hm⟩ := message_of_written hwritten
  have hash (rt cp len : Nat) (op : Byte) (hparams : paramsOk rt cp = true) (hrate : rt ≠ 0) (hlen : len ≤ 64) :=
    spongeCommand_hashes 0x06 op ⟨hparams, hrate, hinlen, hlen.trans hobuf⟩ hm
  obtain ⟨t, ht, htresult⟩ := hash 1152 448 28 0x22 rfl (by decide) (by decide)
  obtain ⟨u, hu, huresult⟩ := hash 1088 512 32 0x23 rfl (by decide) (by decide)
  obtain ⟨v, hv, hvresult⟩ := hash 832 768 48 0x24 rfl (by decide) (by decide)
  obtain ⟨w, hw, hwresult⟩ := hash 576 1024 64 0x25 rfl (by decide) (by decide)
  exact ⟨msg, t, u, v, w, isMessage_of_message hm, ht, htresult, hu, huresult, hv, hvresult, hw, hwresult⟩

/-- Settles O36: the checks pass, so the command gathers its message and stops there. -/
theorem unwrittenMessageByteFaults : Obligations.UnwrittenMessageByteFaults := by
  intro s i o k ho hnone hk hunwritten hfirst
  rw [exec_of_spongeOperands ho]
  exact spongeCommand_stops o.suffix (opcode i) (checksPass_of_firstFailure ho hnone)
    (message_of_first_unwritten hk hunwritten hfirst)

/-! The wrappers (R317). -/

/-- A sponge command with the same operands, run from a state that agrees in what it reads, does the same up to what `f`
restores. -/
theorem mapNext_spongeCommand {f : State → State} {rt cp n len : Nat} {sf op op' : Byte} {s s' : State}
    (hparams : s'.params = s.params) (hibuf : s'.ibuf = s.ibuf) (hissuer : s'.issuer = s.issuer)
    (hfail : ∀ c, f (s'.finish c op') = s.finish c op)
    (hdone : ∀ msg, f (spongeState rt sf msg len op' s') = spongeState rt sf msg len op s) :
    mapNext f (spongeCommand rt cp sf n len op' s') = spongeCommand rt cp sf n len op s := by
  cases hc : checksFailure rt cp n len s.params with
  | some c =>
    rw [spongeCommand_of_checksFailure sf op hc, spongeCommand_of_checksFailure sf op' (hparams ▸ hc), mapNext, hfail]
  | none =>
    have hpass : ChecksPass rt cp n len s := checksFailure_eq_none_iff.mp hc
    have hpass' : ChecksPass rt cp n len s' := checksFailure_eq_none_iff.mp (hparams ▸ hc)
    have hmessage : message s' n = message s n := congrArg (Memory.gather · n 0) hibuf
    cases hm : message s n with
    | error k =>
      rw [spongeCommand_stops sf op hpass hm, spongeCommand_stops sf op' hpass' (hmessage.trans hm), mapNext, hissuer]
    | ok msg =>
      rw [spongeCommand_completes sf op hpass hm, spongeCommand_completes sf op' hpass' (hmessage.trans hm), mapNext, hdone]

/-- A SHAKE command is KECCAK with RATE, CAPACITY and SUFFIX set for it, and restored after it. -/
theorem spongeCommand_eq_keccak_shake (rt cp : Word) (op : Byte) (s : State) :
    spongeCommand rt.toNat cp.toNat 0x1F s.inlen.toNat s.outlen.toNat op s =
      mapNext (fun t => { t with rate := s.rate, capacity := s.capacity, suffix := s.suffix, lastop := op })
        (exec .keccak { s with rate := rt, capacity := cp, suffix := 0x1F }) :=
  Eq.symm (mapNext_spongeCommand rfl rfl rfl (fun _ => rfl) fun _ => rfl)

/-- A SHA3 command is KECCAK with OUTLEN set for it too. -/
theorem spongeCommand_eq_keccak_sha3 (rt cp len : Word) (op : Byte) (s : State) :
    spongeCommand rt.toNat cp.toNat 0x06 s.inlen.toNat len.toNat op s =
      mapNext
        (fun t => { t with rate := s.rate, capacity := s.capacity, suffix := s.suffix, outlen := s.outlen, lastop := op })
        (exec .keccak { s with rate := rt, capacity := cp, suffix := 0x06, outlen := len }) :=
  Eq.symm (mapNext_spongeCommand rfl rfl rfl (fun _ => rfl) fun _ => rfl)

/-- Settles O37: a wrapper's arm is the sponge command with its fixed parameters. -/
theorem wrappersAreKeccakWithFixedParameters : Obligations.WrappersAreKeccakWithFixedParameters := by
  intro s shake sha3
  refine ⟨spongeCommand_eq_keccak_shake 1344 256 0x20 s, spongeCommand_eq_keccak_shake 1088 512 0x21 s,
    spongeCommand_eq_keccak_sha3 1152 448 28 0x22 s, spongeCommand_eq_keccak_sha3 1088 512 32 0x23 s,
    spongeCommand_eq_keccak_sha3 832 768 48 0x24 s, spongeCommand_eq_keccak_sha3 576 1024 64 0x25 s, fun t h => ?_⟩
  obtain ⟨-, -, hrate, hcapacity, hsuffix, -⟩ := exec_keeps_operands h
  exact ⟨hrate, hcapacity, hsuffix⟩

/-! What the results depend on (R302, R318). -/

/-- A sponge command that ends with OK has passed its checks and hashed its message. -/
theorem spongeCommand_ok {rt cp : Nat} {sf : Byte} {n len : Nat} {op : Byte} {s t : State}
    (h : spongeCommand rt cp sf n len op s = .next t) (hok : t.result = .ok) :
    ∃ msg, message s n = .ok msg ∧ SpongeResult s t op rt sf msg len := by
  obtain ⟨c, hc, rfl⟩ | ⟨hpass, msg, hm, rfl⟩ := spongeCommand_next h
  · rw [State.finish_result] at hok
    subst hok
    simp at hc
  · exact ⟨msg, hm, spongeResult_spongeState sf msg op hpass⟩

/-- Two runs that end with OK on the same message leave the same digest and the same KSTATE. -/
theorem spongeCommand_determined {rt cp : Nat} {sf : Byte} {n len : Nat} {op : Byte} {s₁ s₂ t₁ t₂ : State}
    (hmessage : message s₁ n = message s₂ n) (h₁ : spongeCommand rt cp sf n len op s₁ = .next t₁)
    (h₂ : spongeCommand rt cp sf n len op s₂ = .next t₂) (hok₁ : t₁.result = .ok) (hok₂ : t₂.result = .ok) :
    t₁.kstate = t₂.kstate ∧ ∀ k, k < len → Memory.read t₁.obuf k = Memory.read t₂.obuf k := by
  obtain ⟨msg, hm, ht₁, -, hread₁⟩ := spongeCommand_ok h₁ hok₁
  obtain ⟨msg', hm', ht₂, -, hread₂⟩ := spongeCommand_ok h₂ hok₂
  obtain rfl : msg = msg' := Except.ok.inj (hm.symm.trans (hmessage.trans hm'))
  refine ⟨?_, fun k hk => ?_⟩
  · rw [ht₁, ht₂]
  · rw [hread₁, hread₂, if_pos hk, if_pos hk]

/-- A SHA3 command takes nothing but its message's length from the registers. -/
theorem exec_sha3_of_mem {i : Instr} {d : Nat}
    (h : (i, d) ∈ [(Instr.sha3_224, 28), (Instr.sha3_256, 32), (Instr.sha3_384, 48), (Instr.sha3_512, 64)]) :
    ∃ rt cp, ∀ s, exec i s = spongeCommand rt cp 0x06 s.inlen.toNat d (opcode i) s := by
  simp only [List.mem_cons, Prod.mk.injEq, List.not_mem_nil, or_false] at h
  obtain ⟨rfl, rfl⟩ | ⟨rfl, rfl⟩ | ⟨rfl, rfl⟩ | ⟨rfl, rfl⟩ := h
  · exact ⟨_, _, exec_sha3_224⟩
  · exact ⟨_, _, exec_sha3_256⟩
  · exact ⟨_, _, exec_sha3_384⟩
  · exact ⟨_, _, exec_sha3_512⟩

/-- Settles O38: a SHA3 command's other operands are fixed, and the two messages are the same. -/
theorem digestDependsOnMessageOnly : Obligations.DigestDependsOnMessageOnly := by
  intro s₁ s₂ t₁ t₂ i d hi hinlen hbytes h₁ h₂ hok₁ hok₂
  obtain ⟨rt, cp, hexec⟩ := exec_sha3_of_mem hi
  rw [hexec] at h₁ h₂
  rw [← hinlen] at h₂
  exact spongeCommand_determined (message_congr hbytes) h₁ h₂ hok₁ hok₂

theorem resultByte_eq_ok : ∀ c : ResultCode, resultByte c = resultByte .ok → c = .ok := by
  intro c h
  cases c with
  | ok => rfl
  | _ => exact absurd h (by decide)

/-- With no output asked for, the sponge ends in the state after the final permutation. -/
theorem sponge_zero (rt : Nat) (sf : Byte) (msg : List Byte) : sponge rt sf msg 0 = ([], squeezeStart rt sf msg) := rfl

/-- Settles O39: the command completes, and its output is empty. -/
theorem zeroLengthSuccessIsDistinct : Obligations.ZeroLengthSuccessIsDistinct := by
  refine ⟨resultByte_eq_ok, fun s i o msg ho hnone hzero hmsg => ?_⟩
  have hpass := checksPass_of_firstFailure ho hnone
  rw [exec_of_spongeOperands ho, spongeCommand_completes o.suffix (opcode i) hpass (message_of_isMessage hmsg), hzero]
  refine ⟨_, rfl, spongeState_result .., ?_, ?_⟩
  · rw [spongeState_obuf, sponge_zero, Memory.writeBytes]
  · rw [spongeState_kstate, sponge_zero]

end Sys2Proof.Machine
end

section
/-! What a performed word writes to STATUS (60_exceptions.md R350 to R353), and the core with nothing to perform (R362). -/

namespace Sys2Proof.Machine

open Sys2Proof.Reference

/-! The words by the first two checks of R352. -/

/-- A word of 256 or more has a reserved bit set (30_encoding.md R120). -/
theorem reservedField_ne_zero {v : Word} (h : 256 ≤ v.toNat) : reservedField v ≠ 0 := by
  have hlt := v.isLt
  rw [reservedField, ne_eq, ← BitVec.toNat_inj, BitVec.extractLsb'_toNat, Nat.shiftRight_eq_div_pow]
  show v.toNat / 2 ^ 8 % 2 ^ 24 ≠ 0
  omega

/-- The map holds no opcode but those of the commands (30_encoding.md R122). -/
theorem eq_encode_of_defined {v : Word} (h : v.toNat ∈ definedOpcodes) : ∃ i, v = encode i := by
  have hmap : definedOpcodes = (aesCommands ++ .keccakf :: spongeCommands).map fun i => (encode i).toNat := rfl
  obtain ⟨i, -, hi⟩ := List.mem_map.mp (hmap ▸ h)
  exact ⟨i, BitVec.eq_of_toNat_eq hi.symm⟩

/-- Performing a command's word is the command's meaning (30_encoding.md R122). -/
theorem perform_encode (i : Instr) (s : State) : perform (encode i) s = exec i s := perform_of_decode (decode_encode i) s

/-- A performed word meets a failure and writes the first one's code to STATUS, and nothing else, or it is a command's and
meets none. -/
theorem perform_firstFailure_cases (v : Word) (s : State) :
    (∃ c, firstFailure v s = some c ∧ perform v s = .next (s.finish c (opcodeField v))) ∨
    (∃ i, v = encode i ∧ firstFailure v s = none) := by
  by_cases hlarge : 256 ≤ v.toNat
  · refine .inl ⟨.errReserved, if_pos hlarge, ?_⟩
    rw [perform, decode_reserved (reservedField_ne_zero hlarge)]
    rfl
  · by_cases hdefined : v.toNat ∈ definedOpcodes
    · obtain ⟨i, rfl⟩ := eq_encode_of_defined hdefined
      cases hfailure : firstFailure (encode i) s with
      | none => exact .inr ⟨i, rfl, rfl⟩
      | some c =>
        refine .inl ⟨c, rfl, ?_⟩
        rw [perform_encode, opcodeField_encode, exec_of_firstFailure hfailure]
    · refine .inl ⟨.errOpcode, (if_neg hlarge).trans (if_pos hdefined), ?_⟩
      rw [perform, decode_undefined (Nat.lt_of_not_le hlarge) hdefined]
      rfl

/-- Settles O5: the first two failures are those of the decode, the other four those of a command's own checks. -/
theorem firstFailureIsReported : Obligations.FirstFailureIsReported := by
  intro s v c hc
  obtain ⟨c', hc', hp⟩ | ⟨-, -, hnone⟩ := perform_firstFailure_cases v s
  · obtain rfl : c = c' := Option.some.inj (hc.symm.trans hc')
    exact hp
  · cases hc.symm.trans hnone

/-! Commands that complete (R351). -/

/-- A sponge command that passes its checks and does not stop at its message completes. -/
theorem spongeCommand_status_of_checksPass {rt cp : Nat} {sf : Byte} {n len : Nat} {op : Byte} {s t : State}
    (hpass : ChecksPass rt cp n len s) (h : spongeCommand rt cp sf n len op s = .next t) :
    t.lastop = op ∧ t.result = .ok := by
  cases hm : message s n with
  | error k =>
    rw [spongeCommand_stops sf op hpass hm] at h
    cases h
  | ok msg =>
    rw [spongeCommand_completes sf op hpass hm] at h
    cases h
    exact ⟨rfl, rfl⟩

/-- A command that meets no failure and answers a next state writes its opcode and OK to STATUS. -/
theorem exec_status_of_no_failure {i : Instr} {s t : State} (hnone : firstFailure (encode i) s = none)
    (h : exec i s = .next t) : t.lastop = opcode i ∧ t.result = .ok := by
  cases i with
  | expandkey | encrypt | decrypt | keccakf =>
    cases h
    exact ⟨rfl, rfl⟩
  | _ =>
    rw [exec_of_spongeOperands rfl] at h
    exact spongeCommand_status_of_checksPass (checksPass_of_firstFailure rfl hnone) h

/-- Settles O6: a word that meets a failure writes its code, and a command that meets none completes. -/
theorem performedWordWritesStatus : Obligations.PerformedWordWritesStatus := by
  intro s t v h
  obtain ⟨c, hc, hp⟩ | ⟨i, rfl, hnone⟩ := perform_firstFailure_cases v s
  · rw [hp] at h
    cases h
    rw [hc]
    exact ⟨rfl, rfl⟩
  · rw [perform_encode] at h
    obtain ⟨hlastop, hresult⟩ := exec_status_of_no_failure hnone h
    rw [hnone]
    exact ⟨hlastop.trans (opcodeField_encode i).symm, hresult⟩

/-- Settles O52: with no input pending a step performs nothing. -/
theorem idleCoreKeepsState : Obligations.IdleCoreKeepsState := fun _ hidle => step_idle hidle

end Sys2Proof.Machine
end

section

/-! The platform's reset (70_reset_and_hazards.md R380). -/

namespace Sys2Proof.Machine

/-- `State.afterReset`, through which the step of a reset is stated, as the record R380 asks for. -/
theorem State.afterReset_eq (s : State) : s.afterReset =
    { State.resetWith s.params with inputs := s.inputs, issuer := s.issuer, returned := s.returned } := rfl

/-- Settles O51: the step that takes a reset answers `afterReset` of the state it was offered to. -/
theorem resetInputResetsCore : Obligations.ResetInputResetsCore := by
  intro s
  rw [step_offer_reset, State.afterReset_eq]

end Sys2Proof.Machine
end
